-- ==== Sys2Proof/Word.lean ====
section
/-! DEFINITION. The word types of the machine: what the spec treats as bits and how wide it is.
Spec: `00_scope.md` R4 (fixed and derived widths), R5 (bit numbering), R6 (values are unsigned bit vectors). -/

namespace Sys2Proof

/-- A byte of the program text (R25: the address space is byte-addressed). -/
abbrev Byte := BitVec 8

/-- An instruction word (R38) and a word lane of a vector register (R11): 32 bits. -/
abbrev Word := BitVec 32

/-- The contents of a vector register: `VR_BITS = 128` (R4, R10). -/
abbrev Vec128 := BitVec 128

/-- A vector-register number, 7 bits wide: `VD`, `VA`, `VB` are `zext_7` of a 5-bit field in form VC (R41) and
7-bit concatenations in form VX128_R (R42), so every value names one of the 128 registers of R10. -/
abbrev VRNum := BitVec 7

end Sys2Proof
end

