-- ==== Sys2Proof/Config.lean ====
section
/-! DEFINITION. The implementation parameters of `00_scope.md` R4 that the model fixes by name.
The three that a test could show wrong stand where a repair may mend them: `RC128_BIT` in `Decode.lean`,
`DENORM_FLUSH` in `Machine/Operands.lean`, and the byte order in `Decode.lean`.
`IMEM` and `END_PC` are OPEN arguments: the interface's `step` takes only a state, so State carries them.
No value of this hardware is a free value: the source calls nothing undefined (`93_implementation_defined.md`, section 1). -/

namespace Sys2Proof

/-- An address of the one address space (R25), and the program counter's type (R18): `PC_BITS` bits wide, a parameter the
spec leaves OPEN (R4) and that is taken at the spec's default, 32. DESIGN CHOICE, unsafe, log entry 2. -/
abbrev Addr := BitVec 32

/-- `NUM_VR` (R4, R10): one file of 128 vector registers. -/
abbrev Config.numVR : Nat := 128

/-- `NUM_VR_VC` (R4, R12): the registers form VC can name are 0 to 31. -/
abbrev Config.numVRofVC : Nat := 32

/-- `CR_FIELD` (R4, R14): the condition-register field a record form writes. -/
abbrev Config.crField : Nat := 6

/-- `VEC_AVAILABLE` (R4, R84): the vector unit is enabled, a launch premise (R87) and no state of the machine (R19).
Log entry 9. -/
def Config.vecAvailable : Bool := true

/-- `ENTRY` (R4, R86): OPEN; the value `State.reset` starts at. DESIGN CHOICE, unsafe, log entry 5. -/
def Config.entry : Addr := 0

end Sys2Proof
end

