-- ==== Sys2Proof/Syntax.lean ====
section
/-! DEFINITION. The instruction set: one constructor per row of `spec/opcode_table.json` (R2, R51, R53).
Operand order is destination, source A, source B (R50). There are no immediates (R45). -/

namespace Sys2Proof

/-- The four mnemonics of R2. A trailing full stop of the mnemonic (the record form, Rc = 1, R51) is spelled `Rc` here. -/
inductive Instr where
  /-- `vcmpbfp VD, VA, VB`: form VC, Rc = 0 (R61). -/
  | vcmpbfp (vd va vb : VRNum)
  /-- `vcmpbfp. VD, VA, VB`: form VC, Rc = 1 (R62). -/
  | vcmpbfpRc (vd va vb : VRNum)
  /-- `vcmpbfp128 VD, VA, VB`: form VX128_R, Rc = 0 (R63). -/
  | vcmpbfp128 (vd va vb : VRNum)
  /-- `vcmpbfp128. VD, VA, VB`: form VX128_R, Rc = 1 (R64). -/
  | vcmpbfp128Rc (vd va vb : VRNum)
  deriving DecidableEq, Repr

/-- The destination register number `VD` (R50). -/
def Instr.vd : Instr → VRNum
  | .vcmpbfp vd _ _ => vd
  | .vcmpbfpRc vd _ _ => vd
  | .vcmpbfp128 vd _ _ => vd
  | .vcmpbfp128Rc vd _ _ => vd

/-- The source A register number `VA` (R50). -/
def Instr.va : Instr → VRNum
  | .vcmpbfp _ va _ => va
  | .vcmpbfpRc _ va _ => va
  | .vcmpbfp128 _ va _ => va
  | .vcmpbfp128Rc _ va _ => va

/-- The source B register number `VB` (R50). -/
def Instr.vb : Instr → VRNum
  | .vcmpbfp _ _ vb => vb
  | .vcmpbfpRc _ _ vb => vb
  | .vcmpbfp128 _ _ vb => vb
  | .vcmpbfp128Rc _ _ vb => vb

/-- The Rc bit (R43): true in the record forms. -/
def Instr.rc : Instr → Bool
  | .vcmpbfp _ _ _ => false
  | .vcmpbfpRc _ _ _ => true
  | .vcmpbfp128 _ _ _ => false
  | .vcmpbfp128Rc _ _ _ => true

end Sys2Proof
end

