-- ==== Sys2Proof/WellFormed.lean ====
section
/-! DEFINITION. Well-formed instructions: the ones an encoding exists for.
Form VC holds 5-bit register numbers, so a number above 31 is to be rejected (R41, R52).
Form VX128_R holds 7-bit numbers and every value is legal (R42). -/

namespace Sys2Proof

/-- R41, R52: the number fits the 5-bit field of form VC. -/
def VRNum.fitsVC (n : VRNum) : Bool := decide (n.toNat < Config.numVRofVC)

/-- Every operand of the instruction can be held by its form's fields. -/
def Instr.wf : Instr → Bool
  | .vcmpbfp vd va vb => VRNum.fitsVC vd && VRNum.fitsVC va && VRNum.fitsVC vb
  | .vcmpbfpRc vd va vb => VRNum.fitsVC vd && VRNum.fitsVC va && VRNum.fitsVC vb
  | .vcmpbfp128 _ _ _ => true
  | .vcmpbfp128Rc _ _ _ => true

end Sys2Proof
end

