-- ==== Sys2Proof/Decode.lean ====
section
/-! DEFINITION. Byte order, the two instruction forms, the decoder (R46, R47) and the encoder (R54).
Bit positions are in LSB numbering, `w[hi:lo]` of R6; the IBM positions of R39 and R40 stand beside them. -/

namespace Sys2Proof

/-! ### Byte order (R26) -/

/-- R26, R27: `IMEM[a] ++ IMEM[a+1] ++ IMEM[a+2] ++ IMEM[a+3]`, the byte at the lowest address most significant. -/
def wordOfBytes (b0 b1 b2 b3 : Byte) : Word := b0 ++ b1 ++ b2 ++ b3

/-- R26: byte `k` (0 to 3) of a word as it lies in memory, `k` bytes above the word's address. -/
def byteOfWord (w : Word) (k : Nat) : Byte := w.extractLsb' (24 - 8 * k) 8

/-- R26: a word's four bytes at ascending addresses. -/
def bytesOfWord (w : Word) : List Byte :=
  [byteOfWord w 0, byteOfWord w 1, byteOfWord w 2, byteOfWord w 3]

/-! ### Operand assembly (R41, R42) -/

/-- R41: `VD = zext_7(w[25:21])`, field `VRT` (IBM 6–10). -/
def vcVD (w : Word) : VRNum := (w.extractLsb' 21 5).setWidth 7
/-- R41: `VA = zext_7(w[20:16])`, field `VRA` (IBM 11–15). -/
def vcVA (w : Word) : VRNum := (w.extractLsb' 16 5).setWidth 7
/-- R41: `VB = zext_7(w[15:11])`, field `VRB` (IBM 16–20). -/
def vcVB (w : Word) : VRNum := (w.extractLsb' 11 5).setWidth 7

/-- R42: `VD = w[3:2] ++ w[25:21]`, `VD128h` (IBM 28–29) above `VD128l` (IBM 6–10). -/
def vxVD (w : Word) : VRNum := w.extractLsb' 2 2 ++ w.extractLsb' 21 5
/-- R42: `VA = w[10] ++ w[5] ++ w[20:16]`, `VA128H` (IBM 21) above `VA128h` (IBM 26) above `VA128l` (IBM 11–15). -/
def vxVA (w : Word) : VRNum := w.extractLsb' 10 1 ++ w.extractLsb' 5 1 ++ w.extractLsb' 16 5
/-- R42: `VB = w[1:0] ++ w[15:11]`, `VB128h` (IBM 30–31) above `VB128l` (IBM 16–20). -/
def vxVB (w : Word) : VRNum := w.extractLsb' 0 2 ++ w.extractLsb' 11 5

/-! ### The opcode map (R43, R44, R46) -/

/-- R5: the single mask that tests IBM bit `i` (0 = most significant) of a 32-bit word, `0x80000000 >> i`. -/
def ibmMask (i : Nat) : Word := 0x80000000#32 >>> i

/-- R39, R43: the IBM bit number of `Rc` in form VC. -/
def rcVCBit : Nat := 21

/-- `RC128_BIT` (R4, R43): the IBM bit number of `Rc` in form VX128_R, 27 as the source says.
The spec doubts it (`92_eei_decisions.md` D14) and asks that one edit change it: this is that edit. Log entry 7. -/
def rc128Bit : Nat := 27

/-- R46: the mask of form VC, the `OPCD`, `XO` and `Rc` fields. -/
def maskVC : Word := 0xFC0007FF#32
/-- R46: the match of `vcmpbfp`, `OPCD = 4`, `XO = 966`, `Rc = 0`. -/
def matchVC : Word := 0x100003C6#32
/-- R46: the match of `vcmpbfp.`, 0x100007C6. -/
def matchVCRc : Word := matchVC ||| ibmMask rcVCBit

/-- R46: the mask of form VX128_R. D14: the same under both readings of the `Rc` position. -/
def maskVX : Word := 0xFC0003D0#32
/-- R46: the match of `vcmpbfp128`, `OPCD = 6`, `XO = 6` (in place 0x180, R44), `Rc = 0`. -/
def matchVX : Word := 0x18000180#32
/-- R46: the match of `vcmpbfp128.`, 0x18000190 with `RC128_BIT = 27`. -/
def matchVXRc : Word := matchVX ||| ibmMask rc128Bit

/-- Why bytes are no instruction of this spec; the three classes of R47, and a text that ends inside a word. -/
inductive DecodeReject where
  /-- Fewer than the four bytes of R38. Raised by `decodeBytes`; safe. -/
  | truncated
  /-- R47: a primary opcode other than 4 and 6. Raised by `decode`; safe. -/
  | primaryOpcode (w : Word)
  /-- R47: primary opcode 4 with an extended opcode other than 966. Raised by `decode`; safe. -/
  | extendedOpcodeVC (w : Word)
  /-- R47: primary opcode 6 with an extended opcode field other than 6. Raised by `decode`; safe. -/
  | extendedOpcodeVX (w : Word)
  deriving DecidableEq, Repr

/-- R47: which class of undecodable word `w` is, by its primary opcode. -/
def rejectOf (w : Word) : DecodeReject :=
  if w.extractLsb' 26 6 = 4#6 then .extendedOpcodeVC w
  else if w.extractLsb' 26 6 = 6#6 then .extendedOpcodeVX w
  else .primaryOpcode w

/-- R46: decode a 32-bit word; every other word is undecodable (R47). -/
def decode (w : Word) : Except DecodeReject Instr :=
  if w &&& maskVC = matchVC then .ok (.vcmpbfp (vcVD w) (vcVA w) (vcVB w))
  else if w &&& maskVC = matchVCRc then .ok (.vcmpbfpRc (vcVD w) (vcVA w) (vcVB w))
  else if w &&& maskVX = matchVX then .ok (.vcmpbfp128 (vxVD w) (vxVA w) (vxVB w))
  else if w &&& maskVX = matchVXRc then .ok (.vcmpbfp128Rc (vxVD w) (vxVA w) (vxVB w))
  else .error (rejectOf w)

/-- Decode the first instruction of a list of bytes in memory order, and give the rest (R38: always 4 bytes). -/
def decodeBytes : List Byte → Except DecodeReject (Instr × List Byte)
  | b0 :: b1 :: b2 :: b3 :: rest =>
    match decode (wordOfBytes b0 b1 b2 b3) with
    | .ok i => .ok (i, rest)
    | .error e => .error e
  | _ => .error .truncated

/-! ### The encoder (R54) -/

/-- A one-bit field as a word, to be shifted into place. -/
def bitField (b : Bool) : Word := if b then 1#32 else 0#32

/-- Bits `[lo + n - 1 : lo]` of a register number as a word, to be shifted into place. -/
def regField (r : VRNum) (lo n : Nat) : Word := (r.extractLsb' lo n).setWidth 32

/-- R54: `enc_vcmpbfp(VD, VA, VB, rc)`. -/
def encodeVC (vd va vb : VRNum) (rc : Bool) : Word :=
  (4#32 <<< 26) ||| (regField vd 0 5 <<< 21) ||| (regField va 0 5 <<< 16) ||| (regField vb 0 5 <<< 11)
    ||| (bitField rc <<< (31 - rcVCBit)) ||| 966#32

/-- R54: `enc_vcmpbfp128(VD, VA, VB, rc)`. -/
def encodeVX (vd va vb : VRNum) (rc : Bool) : Word :=
  (6#32 <<< 26) ||| (regField vd 0 5 <<< 21) ||| (regField va 0 5 <<< 16) ||| (regField vb 0 5 <<< 11)
    ||| (regField va 6 1 <<< 10) ||| (6#32 <<< 6) ||| (regField va 5 1 <<< 5) ||| (bitField rc <<< (31 - rc128Bit))
    ||| (regField vd 5 2 <<< 2) ||| regField vb 5 2

/-- R54: the word of an instruction; of a well-formed one, the word that decodes to it (R55). -/
def encode : Instr → Word
  | .vcmpbfp vd va vb => encodeVC vd va vb false
  | .vcmpbfpRc vd va vb => encodeVC vd va vb true
  | .vcmpbfp128 vd va vb => encodeVX vd va vb false
  | .vcmpbfp128Rc vd va vb => encodeVX vd va vb true

/-! ### The opcode table's numbering -/

/-- A table word: the low `nbits` bits of `w`, the bits above them zero, as the one 32-bit word of R38. -/
def tableWord (nbits w : Nat) : Word := BitVec.ofNat 32 (w % 2 ^ nbits)

/-- The instruction the decoder reads from a table word laid out in memory big-endian (R26). -/
def decodeTableWord (nbits w : Nat) : Option Instr :=
  match decodeBytes (bytesOfWord (tableWord nbits w)) with
  | .ok (i, _) => some i
  | .error _ => none

end Sys2Proof
end

