-- ==== Sys2Proof/Machine/State.lean ====
section
/-! DEFINITION. The machine's state, and the reasons a step can stop.
R24: the state the spec gives the machine is `(VR, CR6, pc)` and the mark "refused".
The two OPEN arguments of a step, `IMEM` and `END_PC` (R4, R21, R88), are carried beside it, since the interface's step
takes a state alone; no instruction changes them (log entry 1). There is no hidden state (R22), and the state that R19
only names (general registers, `f[]`, XER, VSCR, other CR fields, MSR) is by R19 "not state of the model". -/

namespace Sys2Proof.Machine

/-- R14: a condition-register field, four one-bit flags in this order. -/
structure CrField where
  lt : Bool
  gt : Bool
  eq : Bool
  so : Bool
  deriving DecidableEq, Repr

/-- The program text `IMEM` (R25): a partial map from byte addresses to bytes, as pairs with strictly rising addresses
(`Memory.wf` of `Ops.lean`). An unlisted address is unmapped: it holds no byte. -/
abbrev Memory := List Host.Cell

/-- The reasons the agent has no step (R72, R88). No instruction raises one (R70). -/
inductive Fault where
  /-- R88: `pc = END_PC`, where the model stops looking. It is the end of the run and says nothing of the chip, which would
  fetch on. Raised by `nextInstr` before anything is fetched; safe. -/
  | endOfRun
  /-- R72: one of the four bytes at `pc` is unmapped and `pc` is not `END_PC`: the agent is stuck. Raised by `nextInstr`
  when it fetches; safe. -/
  | unmappedFetch (pc : Addr)
  deriving DecidableEq, Repr

/-- The reasons the model gives a step no meaning (`refuse` of R6). No instruction raises one (R70). -/
inductive Refusal where
  /-- An instruction the model has no meaning for yet. Raised by `exec` alone; no arm of it does now; safe. -/
  | notModelled (mnemonic : String)
  /-- R71: the word at `pc` is neither instruction of this spec; never a trap. Raised by `nextInstr` when it decodes; safe. -/
  | undecodable (pc : Addr) (w : Word)
  /-- R28: a step was asked for at a pc that is not a multiple of 4. Raised by `nextInstr` before it fetches; safe. -/
  | misalignedPc (pc : Addr)
  /-- R24, R87 (`NotRefused`): the mark "refused" is set, and it is never cleared. Raised by `nextInstr` before all else;
  safe, log entry 4. -/
  | markedRefused
  deriving DecidableEq, Repr

/-- The state (R24), with the two OPEN arguments of a step. -/
structure State where
  /-- R10: `VR[0]` to `VR[127]`. -/
  vr : Vector Vec128 Config.numVR
  /-- R14: condition-register field 6. -/
  cr6 : CrField
  /-- R17: the byte address of the instruction being executed. -/
  pc : Addr
  /-- R25: the program text `IMEM`. -/
  mem : Memory
  /-- R88: `END_PC`, where a run is over; `none` where no end is set and the agent fetches on, as a processor does. -/
  endPc : Option Addr
  /-- R24: the mark "refused", set by R71 and never cleared. -/
  refused : Bool
  deriving DecidableEq, Repr

/-- The launch state that stands for reset. R23 and R85 give no value for `VR`, `CR6` or `pc`: each is a DESIGN CHOICE,
unsafe (log entry 5), and so are the empty text and the unset end (log entries 1 and 3). `NotRefused` is R87's. -/
def State.reset : State where
  vr := Vector.replicate Config.numVR 0
  cr6 := { lt := false, gt := false, eq := false, so := false }
  pc := Config.entry
  mem := []
  endPc := none
  refused := false

end Sys2Proof.Machine
end

