-- ==== Sys2Proof/Machine/Ops.lean ====
section
/-! DEFINITION. The named operations over registers and memory. All reads and writes of State go through these.
There is no operation that takes an exception and none that returns from one: no instruction raises an exception (R70)
and the spec describes no trap entry (R75), no return (R76) and no interrupt (R73). -/

namespace Sys2Proof.Machine

/-! ### Vector registers (R10, R13): no register is hardwired and none is read-only -/

/-- `VR[n]`. -/
def State.readVR (s : State) (n : VRNum) : Vec128 := s.vr[n.toNat]'n.isLt

/-- `VR[n] <- v`, the whole register (R13). -/
def State.writeVR (s : State) (n : VRNum) (v : Vec128) : State := { s with vr := s.vr.set n.toNat v n.isLt }

/-! ### CR6, pc and the mark -/

/-- `CR6 <- (lt, gt, eq, so)`, all four flags (R16). -/
def State.writeCR6 (s : State) (f : CrField) : State := { s with cr6 := f }

/-- `pc <- pc + 4`, modulo `2^PC_BITS` (R17, R18). -/
def State.advancePc (s : State) : State := { s with pc := s.pc + 4#32 }

/-- R24, R71: set the mark "refused". Nothing clears it. -/
def State.markRefused (s : State) : State := { s with refused := true }

/-! ### Memory (R25, R26, R31): the address is the index, there is no translation and no region with a side effect -/

/-- The byte at an address, `none` where the address is unmapped (R25). -/
def Memory.readCell : Memory → Nat → Option Byte
  | [], _ => none
  | (k, v) :: rest, a => if k = a then some v else Memory.readCell rest a

/-- Map an address to a byte, keeping the addresses rising. -/
def Memory.writeCell : Memory → Nat → Byte → Memory
  | [], a, b => [(a, b)]
  | (k, v) :: rest, a, b =>
    if a < k then (a, b) :: (k, v) :: rest
    else if a = k then (a, b) :: rest
    else (k, v) :: Memory.writeCell rest a b

/-- Every address listed is at least `lo`, inside the address space, and below the next one. -/
def Memory.risingFrom : Nat → Memory → Bool
  | _, [] => true
  | lo, (k, _) :: rest => decide (lo ≤ k) && decide (k < 2 ^ 32) && Memory.risingFrom (k + 1) rest

/-- The canonical form: addresses strictly rising and inside the address space. An unlisted address holds no byte, so no
entry can equal what it reads as. -/
def Memory.wf (m : Memory) : Bool := Memory.risingFrom 0 m

/-- The byte at an address of the machine. -/
def Memory.read (m : Memory) (a : Addr) : Option Byte := Memory.readCell m a.toNat

/-- Put a byte at an address of the machine. No instruction does (R29); the loader does. -/
def Memory.write (m : Memory) (a : Addr) (b : Byte) : Memory := Memory.writeCell m a.toNat b

/-- R6, R27: `MemRead(addr, 4)`, `none` where any of the four bytes is unmapped. Addresses are modulo `2^PC_BITS` (R6). -/
def Memory.readWord (m : Memory) (a : Addr) : Option Word :=
  match Memory.read m a, Memory.read m (a + 1#32), Memory.read m (a + 2#32), Memory.read m (a + 3#32) with
  | some b0, some b1, some b2, some b3 => some (wordOfBytes b0 b1 b2 b3)
  | _, _, _, _ => none

/-- R6: `MemWrite(addr, 4, w)`, the inverse of `MemRead`. No instruction uses it (R29); the loader does. -/
def Memory.writeWord (m : Memory) (a : Addr) (w : Word) : Memory :=
  Memory.write (Memory.write (Memory.write (Memory.write m a (byteOfWord w 0)) (a + 1#32) (byteOfWord w 1))
    (a + 2#32) (byteOfWord w 2)) (a + 3#32) (byteOfWord w 3)

end Sys2Proof.Machine
end

