-- ==== Sys2Proof/Machine/Flags.lean ====
section
/-! DEFINITION. The flag computation of the record forms (R58) and the place of CR6 in the condition register (R15). -/

namespace Sys2Proof.Machine

/-- R58: the field a record form writes, `(lt = 0, gt = 0, eq = not any_out, so = 0)`. `so` is no copy of `XER.SO` (R16). -/
def crOfAnyOut (anyOut : Bool) : CrField := { lt := false, gt := false, eq := !anyOut, so := false }

/-- R58: a field as a 4-bit value in the order `lt gt eq so`. -/
def CrField.bits (f : CrField) : BitVec 4 :=
  BitVec.ofBool f.lt ++ BitVec.ofBool f.gt ++ BitVec.ofBool f.eq ++ BitVec.ofBool f.so

/-- R15: condition-register bit `n` in IBM numbering, where it lies in CR6: field `k` is bits `4k` to `4k+3` in the order
`lt`, `gt`, `eq`, `so`. The bits of other fields are no state of the model (R19) and read as `none`. -/
def State.crBit (s : State) (n : Nat) : Option Bool :=
  if n = 4 * Config.crField then some s.cr6.lt
  else if n = 4 * Config.crField + 1 then some s.cr6.gt
  else if n = 4 * Config.crField + 2 then some s.cr6.eq
  else if n = 4 * Config.crField + 3 then some s.cr6.so
  else none

end Sys2Proof.Machine
end

