-- ==== Sys2Proof/Machine/Operands.lean ====
section
/-! DEFINITION. Operand forms: the four word lanes of a vector register (R11) and the binary32 primitives on a lane (R9).
A vector register is the only operand form there is (R45). -/

namespace Sys2Proof.Machine

/-! ### Lanes (R11) -/

/-- `v.word[i]`: lane 0 is the most significant word. Decision D4 of the spec, unobservable (R69(b)); log entry 8. -/
def lane (v : Vec128) (i : Fin 4) : Word := v.extractLsb' (96 - 32 * i.val) 32

/-- `word[0] ++ word[1] ++ word[2] ++ word[3]`. -/
def ofLanes (w0 w1 w2 w3 : Word) : Vec128 := w0 ++ w1 ++ w2 ++ w3

/-! ### binary32 on bit patterns (R9) -/

/-- `x[30:23]`. -/
def exponent32 (x : Word) : BitVec 8 := x.extractLsb' 23 8
/-- `x[22:0]`. -/
def fraction32 (x : Word) : BitVec 23 := x.extractLsb' 0 23
/-- `x[31]`. -/
def sign32 (x : Word) : Bool := x.getLsbD 31

/-- R9: a NaN, quiet or signalling, of either sign. -/
def isNaN32 (x : Word) : Bool := exponent32 x == 0xFF#8 && fraction32 x != 0#23

/-- R9: negation flips the sign bit only. -/
def fneg32 (x : Word) : Word := x ^^^ 0x80000000#32

/-- R9: the signed integer that orders the non-NaN patterns; both zeros give 0. -/
def key32 (x : Word) : Int :=
  let m := (x.extractLsb' 0 31).toNat
  if m = 0 then 0 else if sign32 x then -(m : Int) else (m : Int)

/-- R9: the quiet ordered comparison `a > b`. -/
def fgt32 (a b : Word) : Bool := !isNaN32 a && !isNaN32 b && decide (key32 a > key32 b)

/-- R9: the quiet ordered comparison `a < b`. -/
def flt32 (a b : Word) : Bool := !isNaN32 a && !isNaN32 b && decide (key32 a < key32 b)

/-! ### Denormal operands (R4, R66(e)) -/

/-- `DENORM_FLUSH` (R4): false, so denormals compare by exact value (R66(e), D16). Log entry 6. -/
def denormFlush : Bool := false

/-- A denormal: exponent zero, fraction non-zero. -/
def isDenormal32 (x : Word) : Bool := exponent32 x == 0#8 && fraction32 x != 0#23

/-- A source lane as the comparison sees it: itself, or a zero of its sign where `DENORM_FLUSH` replaces a denormal. -/
def operandLane (x : Word) : Word := if denormFlush && isDenormal32 x then x &&& 0x80000000#32 else x

end Sys2Proof.Machine
end

