-- ==== Sys2Proof/Machine/VectorCompareBounds.lean ====
section
/-! DEFINITION. The one instruction family, vector compare bounds: the lane function (R56), the vector function (R57), the
execution template (R59) and the meanings of the four instructions (R61 to R64). -/

namespace Sys2Proof.Machine

/-- R56: bit 0x80000000 where `a > b`, bit 0x40000000 where `a < -b`, both where either is a NaN. The lanes are taken as
`operandLane` gives them, which with `DENORM_FLUSH` false is as they stand. -/
def boundsLane (a b : Word) : Word :=
  let a := operandLane a
  let b := operandLane b
  let un := isNaN32 a || isNaN32 b
  let high := un || fgt32 a b
  let low := un || flt32 a (fneg32 b)
  (if high then 0x80000000#32 else 0#32) ||| (if low then 0x40000000#32 else 0#32)

/-- R57: the four result lanes, each from the same lane of the two sources. -/
def boundsVec (a b : Vec128) : Vec128 :=
  ofLanes (boundsLane (lane a 0) (lane b 0)) (boundsLane (lane a 1) (lane b 1))
    (boundsLane (lane a 2) (lane b 2)) (boundsLane (lane a 3) (lane b 3))

/-- R57: `any_out`, whether some result lane is non-zero. -/
def anyOut (r : Vec128) : Bool :=
  lane r 0 != 0#32 || lane r 1 != 0#32 || lane r 2 != 0#32 || lane r 3 != 0#32

/-- R59: both sources are read in full first, then CR6 is written where Rc is 1, then the destination, then the pc. -/
def execBounds (vd va vb : VRNum) (rc : Bool) (s : State) : State :=
  let a := s.readVR va
  let b := s.readVR vb
  let r := boundsVec a b
  let s1 := if rc then s.writeCR6 (crOfAnyOut (anyOut r)) else s
  (s1.writeVR vd r).advancePc

/-- R61: `vcmpbfp VD, VA, VB`. -/
def execVcmpbfp (vd va vb : VRNum) (s : State) : Host.Outcome State Fault Refusal :=
  .next (execBounds vd va vb false s)

/-- R62: `vcmpbfp. VD, VA, VB`. -/
def execVcmpbfpRc (vd va vb : VRNum) (s : State) : Host.Outcome State Fault Refusal :=
  .next (execBounds vd va vb true s)

/-- R63: `vcmpbfp128 VD, VA, VB`. -/
def execVcmpbfp128 (vd va vb : VRNum) (s : State) : Host.Outcome State Fault Refusal :=
  .next (execBounds vd va vb false s)

/-- R64: `vcmpbfp128. VD, VA, VB`. -/
def execVcmpbfp128Rc (vd va vb : VRNum) (s : State) : Host.Outcome State Fault Refusal :=
  .next (execBounds vd va vb true s)

end Sys2Proof.Machine
end

