-- ==== Sys2Proof/Machine/Dispatch.lean ====
section
/-! DEFINITION. One arm per constructor of `Instr`: the rule of each row of `spec/opcode_table.json`. -/

namespace Sys2Proof.Machine

def exec (i : Instr) (s : State) : Host.Outcome State Fault Refusal :=
  match i with
  | .vcmpbfp vd va vb => Sys2Proof.Machine.execVcmpbfp vd va vb s
  | .vcmpbfpRc vd va vb => Sys2Proof.Machine.execVcmpbfpRc vd va vb s
  | .vcmpbfp128 vd va vb => Sys2Proof.Machine.execVcmpbfp128 vd va vb s
  | .vcmpbfp128Rc vd va vb => Sys2Proof.Machine.execVcmpbfp128Rc vd va vb s

end Sys2Proof.Machine
end

