-- ==== Sys2Proof/Machine/Fetch.lean ====
section
/-! DEFINITION. What a step does before it executes: the tests of R74 in their order, the fetch (R27) and the decoding
(R46), and the placing of a word where the next step fetches it. -/

namespace Sys2Proof.Machine

/-- R28: the pc is a multiple of 4. -/
def pcAligned (pc : Addr) : Bool := decide (pc.toNat % 4 = 0)

/-- The instruction the next step executes, or why there is none. R74's order: the end of the run (R88), the alignment
(R28), the fetch (R72), the decoding (R71); the premise `NotRefused` (R87) stands before them (log entry 4). -/
def nextInstr (s : State) : Except (Fault ⊕ Refusal) Instr :=
  if s.refused then .error (.inr .markedRefused)
  else if s.endPc = some s.pc then .error (.inl .endOfRun)
  else if !pcAligned s.pc then .error (.inr (.misalignedPc s.pc))
  else
    match Memory.readWord s.mem s.pc with
    | none => .error (.inl (.unmappedFetch s.pc))
    | some w =>
      match decode w with
      | .error _ => .error (.inr (.undecodable s.pc w))
      | .ok i => .ok i

/-- The pc a placed word is fetched from: the pc itself where it is aligned, else the word it lies in. -/
def alignedPc (pc : Addr) : Addr := pc &&& ~~~3

/-- The state with one word of program text placed where the next step fetches, and with the premises of R87 that the
fetch needs: an aligned pc, an end of the run that is not at the pc, and a clear mark. -/
def placeWord (s : State) (w : Word) : State :=
  { s with
    pc := alignedPc s.pc
    mem := Memory.writeWord s.mem (alignedPc s.pc) w
    endPc := if s.endPc = some (alignedPc s.pc) then none else s.endPc
    refused := false }

end Sys2Proof.Machine
end

