-- ==== Sys2Proof/Machine/Step.lean ====
section
/-! DEFINITION. One step of the one agent (R8): fetch, decode, execute. -/

namespace Sys2Proof.Machine

/-- R8: execute the next instruction, or stop as `nextInstr` says. A "no step" of R72 or R88 is a fault outcome, a `refuse`
of R28, R71 or R87 a refusal. -/
def step (s : State) : Host.Outcome State Fault Refusal :=
  match nextInstr s with
  | .ok i => exec i s
  | .error (.inl f) => .fault f
  | .error (.inr r) => .refused r

/-- The state with a word of the opcode table placed where `step` fetches its next instruction (log entry 3). -/
def State.withFetchWord (s : State) (nbits w : Nat) : State := placeWord s (tableWord nbits w)

end Sys2Proof.Machine
end

