-- ==== Sys2Proof/Machine/Asm.lean ====
section
/-! DEFINITION. The assembler's view of an instruction (R50 to R54): its mnemonic, its written form and its word. -/

namespace Sys2Proof.Machine

/-- R51: the mnemonic; a trailing full stop selects Rc = 1. -/
def mnemonic : Instr → String
  | .vcmpbfp _ _ _ => "vcmpbfp"
  | .vcmpbfpRc _ _ _ => "vcmpbfp."
  | .vcmpbfp128 _ _ _ => "vcmpbfp128"
  | .vcmpbfp128Rc _ _ _ => "vcmpbfp128."

/-- R52: a register operand is `v` and its number in decimal. -/
def regName (n : VRNum) : String := "v" ++ Nat.repr n.toNat

/-- R50: mnemonic, destination, source A, source B. `none` for a register number the form cannot hold (R52). -/
def asmText (i : Instr) : Option String :=
  if i.wf then some (mnemonic i ++ " " ++ regName i.vd ++ ", " ++ regName i.va ++ ", " ++ regName i.vb) else none

/-- R54: the word an assembler gives. R52: it rejects a register number above 31 in form VC. -/
def assemble (i : Instr) : Option Word := if i.wf then some (encode i) else none

end Sys2Proof.Machine
end

