-- ==== Sys2Proof/Machine/FloatValue.lean ====
section
/-! DEFINITION. The real value a binary32 pattern denotes, for statements to compare R9's bit-pattern formulas with.
R9: "For two non-NaN patterns, `key32` is strictly monotone in the real value the pattern denotes". No step uses this file.
The format is IEEE 754 binary32, from general knowledge by the spec's own mark (`93_implementation_defined.md` G1, G2). -/

namespace Sys2Proof.Machine

/-- An infinity, or a finite value counted in units of `2^-149`, the smallest positive denormal. -/
inductive FloatValue where
  | negInf
  | finite (units : Int)
  | posInf
  deriving DecidableEq, Repr

/-- The order of the extended real line. -/
def FloatValue.lt : FloatValue → FloatValue → Bool
  | .negInf, .negInf => false
  | .negInf, _ => true
  | .finite a, .finite b => decide (a < b)
  | .finite _, .posInf => true
  | .finite _, .negInf => false
  | .posInf, _ => false

/-- Negation on the extended real line. -/
def FloatValue.neg : FloatValue → FloatValue
  | .negInf => .posInf
  | .finite a => .finite (-a)
  | .posInf => .negInf

/-- The magnitude of a finite pattern in units of `2^-149`: `f` for a denormal or a zero, `(2^23 + f) * 2^(e - 1)` for a
normal number with exponent field `e` and fraction `f`. -/
def magnitudeUnits (x : Word) : Nat :=
  let e := (exponent32 x).toNat
  let f := (fraction32 x).toNat
  if e = 0 then f else (2 ^ 23 + f) * 2 ^ (e - 1)

/-- The value of a non-NaN pattern. (A NaN has none; the function's answer there is never used.) -/
def floatValue (x : Word) : FloatValue :=
  if exponent32 x = 0xFF#8 then (if sign32 x then .negInf else .posInf)
  else if sign32 x then .finite (-(magnitudeUnits x : Int)) else .finite (magnitudeUnits x)

end Sys2Proof.Machine
end

