-- ==== Sys2Proof/Machine/Run.lean ====
section
/-! DEFINITION. The state a step leaves behind when it gives no next state, which the three outcomes do not carry. -/

namespace Sys2Proof.Machine

/-- The state after one step is asked for: the next state; the same state where the agent has no step (R72, R88); the same
state with the mark "refused" set where the step is refused (R71). -/
def afterStep (s : State) : State :=
  match step s with
  | .next t => t
  | .fault _ => s
  | .refused _ => s.markRefused

end Sys2Proof.Machine
end

