-- ==== Sys2Proof/Safety.lean ====
section
/-! DEFINITION. The words claims use: a launch (R87), a final state (R88), a stuck state (R72), the invariant of the machine,
and the effect of the execution template (R59) with its frame (R20). -/

namespace Sys2Proof.Machine

/-- The premises of R87 on a state about to run a program of the words `prog`; its pc is `ENTRY`. `NoInterrupt` needs no
clause: the model has no interrupt (R73). No premise constrains `VR` or `CR6`. -/
structure Launch (s : State) (prog : List Word) : Prop where
  /-- `AlignedEntry`. -/
  alignedEntry : s.pc.toNat % 4 = 0
  /-- `TextMapped`: instruction `k` lies at `ENTRY + 4k` modulo `2^PC_BITS` (R86). -/
  textMapped : ∀ k, (h : k < prog.length) → Memory.readWord s.mem (s.pc + BitVec.ofNat 32 (4 * k)) = some prog[k]
  /-- `EndPc`. -/
  endPc : s.endPc = some (s.pc + BitVec.ofNat 32 (4 * prog.length))
  /-- `VecAvailable`. -/
  vecAvailable : Config.vecAvailable = true
  /-- `NotRefused`. -/
  notRefused : s.refused = false

/-- R88: a run is over at `pc = END_PC`, and the state is final provided the mark is clear. -/
def State.isFinal (s : State) : Bool := decide (s.endPc = some s.pc) && !s.refused

/-- R72: no step, at a pc that is not `END_PC`. -/
def State.isStuck (s : State) : Bool :=
  match step s with
  | .fault (.unmappedFetch _) => true
  | _ => false

/-- R28, R87: a step may be asked of the state: the pc is a multiple of 4, it is not the end of the run, and the mark is
clear. -/
def State.ready (s : State) : Bool := !s.refused && decide (s.endPc ≠ some s.pc) && pcAligned s.pc

/-- The invariant: the program text is in its canonical form, the pc is aligned (R28), and the mark is clear (R87). -/
def State.inv (s : State) : Bool := Memory.wf s.mem && pcAligned s.pc && !s.refused

/-- R20, the frame: `t` differs from `s` at most in `VR[VD]`, `CR6` and `pc`. -/
def SameElsewhere (s t : State) (vd : VRNum) : Prop :=
  (∀ n, n ≠ vd → t.readVR n = s.readVR n) ∧
  (∀ a, Memory.read t.mem a = Memory.read s.mem a) ∧
  t.mem = s.mem ∧ t.endPc = s.endPc ∧ t.refused = s.refused

/-- R57, R58, R59: `t` is `s` after `ExecBounds(VD, VA, VB, rc)`. Result lane `k` is the lane function of lane `k` of the
sources as they were in `s`; CR6 is written where `rc` is set and kept where it is not; the pc advances; the rest is the
frame. -/
def BoundsEffect (s t : State) (vd va vb : VRNum) (rc : Bool) : Prop :=
  (∀ k : Fin 4, lane (t.readVR vd) k = boundsLane (lane (s.readVR va) k) (lane (s.readVR vb) k)) ∧
  t.cr6 = (if rc then
      { lt := false
        gt := false
        eq := decide (∀ k : Fin 4, boundsLane (lane (s.readVR va) k) (lane (s.readVR vb) k) = 0#32)
        so := false }
    else s.cr6) ∧
  t.pc = s.pc + 4#32 ∧
  SameElsewhere s t vd

/-- R69(b): the register whose lane `k` is lane `p k` of `v`. -/
def permuteLanes (p : Fin 4 → Fin 4) (v : Vec128) : Vec128 :=
  ofLanes (lane v (p 0)) (lane v (p 1)) (lane v (p 2)) (lane v (p 3))

end Sys2Proof.Machine
end

