-- ==== Sys2Proof/Certificates/Slice0/Obligations.lean ====
section
/-! DEFINITION. The statements for the provers. `w.extractLsb hi lo` is the spec's `w[hi:lo]` (R6). -/

open Sys2Proof Sys2Proof.Machine

/-! ### Encoding -/

/-- `95_test_vectors.md` section 5 and the examples of R54: words written out from the field tables decode to their
instructions, and the instructions encode to them. -/
def Obligations.SpecWordsDecodeAndEncode : Prop :=
  ∀ p ∈ [((0x100003C6#32 : Word), Instr.vcmpbfp 0 0 0), (0x106113C6#32, .vcmpbfp 3 1 2), (0x13FFFBC6#32, .vcmpbfp 31 31 31),
      (0x100007C6#32, .vcmpbfpRc 0 0 0), (0x106117C6#32, .vcmpbfpRc 3 1 2), (0x10C52FC6#32, .vcmpbfpRc 6 5 5),
      (0x18000180#32, .vcmpbfp128 0 0 0), (0x188D058E#32, .vcmpbfp128 100 77 64), (0x182001A4#32, .vcmpbfp128 33 32 0),
      (0x18000190#32, .vcmpbfp128Rc 0 0 0), (0x188D059E#32, .vcmpbfp128Rc 100 77 64), (0x18000597#32, .vcmpbfp128Rc 32 64 96)],
    decode p.1 = .ok p.2 ∧ encode p.2 = p.1

/-- `95_test_vectors.md` section 5, "Words that must not decode", each in its class of R47. -/
def Obligations.NeighbourWordsAreRejected : Prop :=
  (∀ w ∈ [(0x100003C7#32 : Word), 0x100003C4#32, 0x100002C6#32], decode w = .error (.extendedOpcodeVC w)) ∧
  (∀ w ∈ [(0x18000100#32 : Word), 0x18000080#32, 0x18000380#32, 0x180001C0#32, 0x180001D0#32],
    decode w = .error (.extendedOpcodeVX w)) ∧
  (∀ w ∈ [(0x140003C6#32 : Word), 0x1C000180#32, 0x00000000#32, 0xFFFFFFFF#32, 0x60000000#32],
    decode w = .error (.primaryOpcode w))

/-- The spec's derived decoding table (R46, "derived: from rules R39, R40, R43"): the masks and matches of the four rows say what the fields say, a word of a row decodes to that row's instruction
with the operands of R41 or R42, and a word of no row does not decode. -/
def Obligations.DecodeFollowsTheFields : Prop :=
  ∀ w : Word,
    let vc (rc : BitVec 1) : Prop := w.extractLsb 31 26 = 4#6 ∧ w.extractLsb 10 10 = rc ∧ w.extractLsb 9 0 = 966#10
    let vx (rc : BitVec 1) : Prop := w.extractLsb 31 26 = 6#6 ∧ w.extractLsb 9 6 = 6#4 ∧ w.extractLsb 4 4 = rc
    let vrt : VRNum := (w.extractLsb 25 21).setWidth 7
    let vra : VRNum := (w.extractLsb 20 16).setWidth 7
    let vrb : VRNum := (w.extractLsb 15 11).setWidth 7
    let vd : VRNum := w.extractLsb 3 2 ++ w.extractLsb 25 21
    let va : VRNum := w.extractLsb 10 10 ++ w.extractLsb 5 5 ++ w.extractLsb 20 16
    let vb : VRNum := w.extractLsb 1 0 ++ w.extractLsb 15 11
    (w &&& 0xFC0007FF#32 = 0x100003C6#32 ↔ vc 0#1) ∧
    (w &&& 0xFC0007FF#32 = 0x100007C6#32 ↔ vc 1#1) ∧
    (w &&& 0xFC0003D0#32 = 0x18000180#32 ↔ vx 0#1) ∧
    (w &&& 0xFC0003D0#32 = 0x18000190#32 ↔ vx 1#1) ∧
    (vc 0#1 → decode w = .ok (.vcmpbfp vrt vra vrb)) ∧
    (vc 1#1 → decode w = .ok (.vcmpbfpRc vrt vra vrb)) ∧
    (vx 0#1 → decode w = .ok (.vcmpbfp128 vd va vb)) ∧
    (vx 1#1 → decode w = .ok (.vcmpbfp128Rc vd va vb)) ∧
    (¬ vc 0#1 → ¬ vc 1#1 → ¬ vx 0#1 → ¬ vx 1#1 → ∃ e, decode w = .error e)

/-- The spec's derived encoding and round trip (R54, R55, from R39 to R46): for every well-formed instruction, with every operand at every value its form admits, decoding its word gives
it back. -/
def Obligations.DecodeOfEncodeIsTheInstruction : Prop :=
  ∀ i : Instr, i.wf = true → decode (encode i) = .ok i

/-- The spec's derived round trip (R55, from R46 and R54): every word that decodes is the word of the instruction it decodes to, and that instruction is well-formed; so no
bit of a decodable word is dropped, and no word stands for two instructions. -/
def Obligations.EncodeOfDecodeIsTheWord : Prop :=
  ∀ (w : Word) (i : Instr), decode w = .ok i → i.wf = true ∧ encode i = w

/-- The two forms address one file (R12): form VC reaches registers 0 to 31 only, form VX128_R reaches all 128. The last clause
is the spec's derived fact (R55; R63, "Identical semantics"): with the same register numbers the two forms have different
words and the same effect. On register numbers above 31 no word of form VC exists, and there that clause rests on the model's
own choice of what `exec` does with an ill-formed term (DESIGN CHOICE, log entry 15). -/
def Obligations.FormsAddressOneRegisterFile : Prop :=
  (∀ (w : Word) (vd va vb : VRNum),
    decode w = .ok (.vcmpbfp vd va vb) ∨ decode w = .ok (.vcmpbfpRc vd va vb) →
      vd.toNat < 32 ∧ va.toNat < 32 ∧ vb.toNat < 32) ∧
  (∀ vd va vb : VRNum,
    (∃ w, decode w = .ok (.vcmpbfp128 vd va vb)) ∧ (∃ w, decode w = .ok (.vcmpbfp128Rc vd va vb))) ∧
  (∀ (vd va vb : VRNum) (s : State),
    encode (.vcmpbfp vd va vb) ≠ encode (.vcmpbfp128 vd va vb) ∧
    encode (.vcmpbfpRc vd va vb) ≠ encode (.vcmpbfp128Rc vd va vb) ∧
    exec (.vcmpbfp vd va vb) s = exec (.vcmpbfp128 vd va vb) s ∧
    exec (.vcmpbfpRc vd va vb) s = exec (.vcmpbfp128Rc vd va vb) s)

/-- The spec's own spelling of operands (R52, decision D28) and encoding (R54): the assembler rejects an instruction of form VC with a register number above 31, and no other instruction; it writes
a register as `v` and its decimal number, and gives the word of R54. -/
def Obligations.AssemblerRejectsHighRegistersInFormVC : Prop :=
  (∀ vd va vb : VRNum,
    (assemble (.vcmpbfp vd va vb) = none ↔ 31 < vd.toNat ∨ 31 < va.toNat ∨ 31 < vb.toNat) ∧
    (assemble (.vcmpbfpRc vd va vb) = none ↔ 31 < vd.toNat ∨ 31 < va.toNat ∨ 31 < vb.toNat) ∧
    assemble (.vcmpbfp128 vd va vb) = some (encode (.vcmpbfp128 vd va vb)) ∧
    assemble (.vcmpbfp128Rc vd va vb) = some (encode (.vcmpbfp128Rc vd va vb))) ∧
  (∀ i w, assemble i = some w → w = encode i) ∧
  asmText (.vcmpbfp 3 1 2) = some "vcmpbfp v3, v1, v2" ∧
  asmText (.vcmpbfp128Rc 100 77 64) = some "vcmpbfp128. v100, v77, v64"

/-! ### The lane function -/

/-- R56: bit 0 of a result lane is set exactly where a lane is a NaN or `a > b`, bit 1 exactly where a lane is a NaN or
`a < -b`, and the other thirty bits are zero. -/
def Obligations.LaneFunctionSetsTheTwoBits : Prop :=
  ∀ a b : Word,
    ((boundsLane a b).getLsbD 31 = true ↔ isNaN32 a = true ∨ isNaN32 b = true ∨ fgt32 a b = true) ∧
    ((boundsLane a b).getLsbD 30 = true ↔ isNaN32 a = true ∨ isNaN32 b = true ∨ flt32 a (fneg32 b) = true) ∧
    (∀ k, k < 30 → (boundsLane a b).getLsbD k = false)

/-- The spec's reading of the comparisons (R9, decision D17, general knowledge G1 and G2): on non-NaN patterns the two comparisons are the order of the values the patterns denote, both are false where either
operand is a NaN, and the sign flip negates the value exactly and keeps a NaN a NaN. The values are IEEE 754 binary32's. -/
def Obligations.ComparisonsAreTheOrderOfTheValues : Prop :=
  ∀ a b : Word,
    (fgt32 a b = true ↔ isNaN32 a = false ∧ isNaN32 b = false ∧ FloatValue.lt (floatValue b) (floatValue a) = true) ∧
    (flt32 a b = true ↔ isNaN32 a = false ∧ isNaN32 b = false ∧ FloatValue.lt (floatValue a) (floatValue b) = true) ∧
    isNaN32 (fneg32 a) = isNaN32 a ∧
    floatValue (fneg32 a) = FloatValue.neg (floatValue a)

/-- A fact the spec derives (R69(a), from R56 to R59): a lane is in bounds if and only if neither operand is a NaN and `-b <= a <= b` on the values they denote. -/
def Obligations.LaneIsZeroExactlyInBounds : Prop :=
  ∀ a b : Word,
    boundsLane a b = 0#32 ↔
      isNaN32 a = false ∧ isNaN32 b = false ∧
      FloatValue.lt (floatValue a) (FloatValue.neg (floatValue b)) = false ∧
      FloatValue.lt (floatValue b) (floatValue a) = false

/-- Corners the spec derives (R66 (a) to (e), from R56 and R9; denormals by decision D16, log entry 6). Clause (c), "equality with a bound is in bounds", is stated for a bound that is not negative, and for a
negative bound as clause (b) and vector 12 have it: the equality sets no bit of its own. -/
def Obligations.CornersOfTheLaneFunction : Prop :=
  ∀ a b : Word, isNaN32 a = false → isNaN32 b = false →
    (key32 a = 0 → 0 ≤ key32 b → boundsLane a b = 0#32) ∧
    (key32 b < 0 → key32 a ≤ key32 b → boundsLane a b = 0x40000000#32) ∧
    (key32 b < 0 → key32 b < key32 a → key32 a < -key32 b → boundsLane a b = 0xC0000000#32) ∧
    (key32 b < 0 → -key32 b ≤ key32 a → boundsLane a b = 0x80000000#32) ∧
    (0 ≤ key32 b → key32 a = key32 b ∨ key32 a = -key32 b → boundsLane a b = 0#32) ∧
    (b = 0x7F800000#32 → boundsLane a b = 0#32) ∧
    (a = 0x7F800000#32 → exponent32 b ≠ 0xFF#8 → boundsLane a b = 0x80000000#32) ∧
    (a = 0xFF800000#32 → exponent32 b ≠ 0xFF#8 → 0 ≤ key32 b → boundsLane a b = 0x40000000#32) ∧
    (b = 0xFF800000#32 → exponent32 a ≠ 0xFF#8 → boundsLane a b = 0xC0000000#32) ∧
    (a = 0x00000001#32 → key32 b = 0 → boundsLane a b = 0x80000000#32)

/-- `95_test_vectors.md` section 7: negating `a` exchanges the two bits, and a non-NaN `a` is never on both sides of a bound
that is not negative. -/
def Obligations.NegatingAExchangesTheBits : Prop :=
  ∀ a b : Word,
    (boundsLane (fneg32 a) b).getLsbD 31 = (boundsLane a b).getLsbD 30 ∧
    (boundsLane (fneg32 a) b).getLsbD 30 = (boundsLane a b).getLsbD 31 ∧
    (isNaN32 a = false → isNaN32 b = false → 0 ≤ key32 b → boundsLane a b ≠ 0xC0000000#32)

/-- `95_test_vectors.md` section 7, R66(a): the lane function does not tell the two zeros apart, in either operand. -/
def Obligations.ZerosOfEitherSignAreAlike : Prop :=
  ∀ a b : Word,
    boundsLane 0x80000000#32 b = boundsLane 0x00000000#32 b ∧
    boundsLane a 0x80000000#32 = boundsLane a 0x00000000#32

/-! ### What the four instructions do -/

/-- R59: every instruction, on every state and with every operand, completes, with the effect of the execution template for
its own operands and Rc bit. -/
def Obligations.EveryInstructionFollowsTheTemplate : Prop :=
  ∀ (i : Instr) (s : State), ∃ t, exec i s = .next t ∧ BoundsEffect s t i.vd i.va i.vb i.rc

/-- R20: one step that executes an instruction changes `VR[VD]`, `CR6` only where Rc is 1, and `pc`, and nothing else: no
other register, no byte of memory, no other field. -/
def Obligations.FrameOfOneStep : Prop :=
  ∀ (s : State) (i : Instr), nextInstr s = .ok i →
    ∃ t, step s = .next t ∧ t.pc = s.pc + 4#32 ∧
      t.readVR i.vd = boundsVec (s.readVR i.va) (s.readVR i.vb) ∧
      (∀ n, n ≠ i.vd → t.readVR n = s.readVR n) ∧
      (i.rc = true → t.cr6 = crOfAnyOut (anyOut (t.readVR i.vd))) ∧
      (i.rc = false → t.cr6 = s.cr6) ∧
      (∀ a, Memory.read t.mem a = Memory.read s.mem a) ∧
      t.endPc = s.endPc ∧ t.refused = s.refused

/-- R58: a record form leaves CR6 as `0b0010` where all four result lanes are zero and as `0b0000` otherwise, so condition
bit 26 alone tells (the position of that bit is the spec's derived one, R15, from R14 and R58); a non-record form leaves CR6 as
it was. -/
def Obligations.RecordFormsWriteCR6 : Prop :=
  ∀ (i : Instr) (s : State), ∃ t, exec i s = .next t ∧
    (i.rc = true → (∀ k : Fin 4, lane (t.readVR i.vd) k = 0#32) → t.cr6.bits = 0b0010#4) ∧
    (i.rc = true → (∃ k : Fin 4, lane (t.readVR i.vd) k ≠ 0#32) → t.cr6.bits = 0b0000#4) ∧
    (i.rc = true → t.crBit 26 = some (decide (∀ k : Fin 4, lane (t.readVR i.vd) k = 0#32))) ∧
    (i.rc = false → t.cr6 = s.cr6)

/-- The position the spec derives (R15, from R14 and R58): CR6 is bits 24 to 27 of the condition register in the order `lt`, `gt`, `eq`, `so`; no other bit lies in it. -/
def Obligations.PlaceOfCR6InTheConditionRegister : Prop :=
  ∀ s : State,
    s.crBit 24 = some s.cr6.lt ∧ s.crBit 25 = some s.cr6.gt ∧ s.crBit 26 = some s.cr6.eq ∧ s.crBit 27 = some s.cr6.so ∧
    (∀ n, n < 24 ∨ 27 < n → s.crBit n = none)

/-- R65: a NaN in lane `k` of either source, quiet or signalling, of either sign and any payload, makes result lane `k`
`0xC0000000` and, in a record form, clears `CR6.eq`; and the other lanes are what they are with any other value in lane
`k`. -/
def Obligations.NaNIsOutOfBoundsBothWays : Prop :=
  ∀ (i : Instr) (s : State) (k : Fin 4),
    isNaN32 (lane (s.readVR i.va) k) = true ∨ isNaN32 (lane (s.readVR i.vb) k) = true →
    ∃ t, exec i s = .next t ∧
      lane (t.readVR i.vd) k = 0xC0000000#32 ∧
      (i.rc = true → t.cr6.eq = false) ∧
      (∀ s' t', exec i s' = .next t' →
        ∀ j : Fin 4, j ≠ k →
          lane (s'.readVR i.va) j = lane (s.readVR i.va) j → lane (s'.readVR i.vb) j = lane (s.readVR i.vb) j →
          lane (t'.readVR i.vd) j = lane (t.readVR i.vd) j)

/-- R67: every result lane is one of four patterns, its low thirty bits zero, and read back as binary32 the four are
`+0.0`, `-0.0`, `2.0` and `-2.0` (in units of `2^-149`, `2.0` is `2^150`). -/
def Obligations.ResultLanesAreFlagPairs : Prop :=
  (∀ (i : Instr) (s : State), ∃ t, exec i s = .next t ∧
    ∀ k : Fin 4,
      (lane (t.readVR i.vd) k = 0x00000000#32 ∨ lane (t.readVR i.vd) k = 0x80000000#32 ∨
        lane (t.readVR i.vd) k = 0x40000000#32 ∨ lane (t.readVR i.vd) k = 0xC0000000#32) ∧
      (∀ j, j < 30 → (lane (t.readVR i.vd) k).getLsbD j = false)) ∧
  floatValue 0x00000000#32 = .finite 0 ∧ floatValue 0x80000000#32 = .finite 0 ∧
  floatValue 0x40000000#32 = .finite (2 ^ 150) ∧ floatValue 0xC0000000#32 = .finite (-(2 ^ 150))

/-- What the spec derives of coincident registers (R68, from R56 and R59): whatever coincidence of `VD`, `VA` and `VB`, the sources are the values before the instruction; and with
`VA = VB` a lane `x >= 0` gives zero, a negative non-zero lane `0x40000000` and a NaN `0xC0000000`. -/
def Obligations.SourcesAreReadBeforeTheDestinationIsWritten : Prop :=
  ∀ (i : Instr) (s : State), ∃ t, exec i s = .next t ∧
    ∀ k : Fin 4,
      lane (t.readVR i.vd) k = boundsLane (lane (s.readVR i.va) k) (lane (s.readVR i.vb) k) ∧
      (i.va = i.vb →
        (isNaN32 (lane (s.readVR i.va) k) = true → lane (t.readVR i.vd) k = 0xC0000000#32) ∧
        (isNaN32 (lane (s.readVR i.va) k) = false → 0 ≤ key32 (lane (s.readVR i.va) k) → lane (t.readVR i.vd) k = 0#32) ∧
        (isNaN32 (lane (s.readVR i.va) k) = false → key32 (lane (s.readVR i.va) k) < 0 →
          lane (t.readVR i.vd) k = 0x40000000#32))

/-- A fact the spec derives (R69(b)); so the model's lane order, log entry 8, is unobservable: permuting the four lanes of both sources permutes the result's lanes and leaves `any_out` as it was. -/
def Obligations.LanePermutationsCommute : Prop :=
  ∀ (p : Equiv.Perm (Fin 4)) (a b : Vec128),
    boundsVec (permuteLanes p a) (permuteLanes p b) = permuteLanes p (boundsVec a b) ∧
    anyOut (boundsVec (permuteLanes p a) (permuteLanes p b)) = anyOut (boundsVec a b)

/-- A fact the spec derives (R69(c)): the result depends on the two source values alone: not on the pc, on CR6, on the old `VR[VD]`, on the register
numbers, nor on which encoding was used; and so does the CR6 a record form writes. -/
def Obligations.ResultDependsOnTheSourcesAlone : Prop :=
  ∀ (i j : Instr) (s u : State), s.readVR i.va = u.readVR j.va → s.readVR i.vb = u.readVR j.vb →
    ∃ s' u', exec i s = .next s' ∧ exec j u = .next u' ∧
      s'.readVR i.vd = u'.readVR j.vd ∧
      (i.rc = true → j.rc = true → s'.cr6 = u'.cr6)

/-- A fact the spec derives (R69(e)): where `VD` is neither source, executing the instruction again changes no register and not CR6. -/
def Obligations.ExecutingTwiceIsExecutingOnce : Prop :=
  ∀ (i : Instr) (s : State), i.vd ≠ i.va → i.vd ≠ i.vb →
    ∃ t u, exec i s = .next t ∧ exec i t = .next u ∧
      (∀ n, u.readVR n = t.readVR n) ∧ u.cr6 = t.cr6

/-- R70: no instruction raises an exception: whatever its operands and the state it runs to the end, where the pc advances;
none faults and none is refused. -/
def Obligations.NoInstructionStops : Prop :=
  ∀ (i : Instr) (s : State),
    (∃ t, exec i s = .next t ∧ t.pc = s.pc + 4#32) ∧ (∀ f, exec i s ≠ .fault f) ∧ (∀ r, exec i s ≠ .refused r)

/-- R17: every instruction ends with `pc <- pc + 4`, and none reads the pc as an operand: with any other pc it does the same
to everything else. (The sum is modulo `2^32`, the model's `PC_BITS`, log entry 2.) -/
def Obligations.NoInstructionReadsThePc : Prop :=
  ∀ (i : Instr) (s : State) (p : Addr), ∃ t,
    exec i s = .next t ∧ t.pc = s.pc + 4#32 ∧ exec i { s with pc := p } = .next { t with pc := p + 4#32 }

/-- R61: `vcmpbfp`, from the word in memory to the state after the step, and the rule's example. -/
def Obligations.StepOfVcmpbfp : Prop :=
  (∀ (s : State) (w : Word), s.ready = true → Memory.readWord s.mem s.pc = some w → w &&& 0xFC0007FF#32 = 0x100003C6#32 →
    ∃ t, step s = .next t ∧
      BoundsEffect s t ((w.extractLsb 25 21).setWidth 7) ((w.extractLsb 20 16).setWidth 7) ((w.extractLsb 15 11).setWidth 7)
        false) ∧
  (∀ s : State, s.ready = true → Memory.readWord s.mem s.pc = some 0x106113C6#32 →
    s.readVR 1 = ofLanes 0x3F800000#32 0x40400000#32 0xC0400000#32 0x7FC00000#32 →
    s.readVR 2 = ofLanes 0x40000000#32 0x40000000#32 0x40000000#32 0x40000000#32 →
    ∃ t, step s = .next t ∧
      t.readVR 3 = ofLanes 0x00000000#32 0x80000000#32 0x40000000#32 0xC0000000#32 ∧ t.cr6 = s.cr6 ∧ t.pc = s.pc + 4#32)

/-- R62: `vcmpbfp.`, from the word in memory to the state after the step, and the rule's two examples. -/
def Obligations.StepOfVcmpbfpRecord : Prop :=
  (∀ (s : State) (w : Word), s.ready = true → Memory.readWord s.mem s.pc = some w → w &&& 0xFC0007FF#32 = 0x100007C6#32 →
    ∃ t, step s = .next t ∧
      BoundsEffect s t ((w.extractLsb 25 21).setWidth 7) ((w.extractLsb 20 16).setWidth 7) ((w.extractLsb 15 11).setWidth 7)
        true) ∧
  (∀ s : State, s.ready = true → Memory.readWord s.mem s.pc = some 0x106117C6#32 →
    s.readVR 2 = ofLanes 0x40000000#32 0x40000000#32 0x40000000#32 0x40000000#32 →
    (s.readVR 1 = ofLanes 0x3F800000#32 0x40400000#32 0xC0400000#32 0x7FC00000#32 →
      ∃ t, step s = .next t ∧
        t.readVR 3 = ofLanes 0x00000000#32 0x80000000#32 0x40000000#32 0xC0000000#32 ∧
        t.cr6 = { lt := false, gt := false, eq := false, so := false }) ∧
    (s.readVR 1 = ofLanes 0x3F800000#32 0x3F000000#32 0xBF000000#32 0x00000000#32 →
      ∃ t, step s = .next t ∧
        t.readVR 3 = 0 ∧ t.cr6 = { lt := false, gt := false, eq := true, so := false }))

/-- R63: `vcmpbfp128`, from the word in memory to the state after the step, and the rule's example. -/
def Obligations.StepOfVcmpbfp128 : Prop :=
  (∀ (s : State) (w : Word), s.ready = true → Memory.readWord s.mem s.pc = some w → w &&& 0xFC0003D0#32 = 0x18000180#32 →
    ∃ t, step s = .next t ∧
      BoundsEffect s t (w.extractLsb 3 2 ++ w.extractLsb 25 21)
        (w.extractLsb 10 10 ++ w.extractLsb 5 5 ++ w.extractLsb 20 16) (w.extractLsb 1 0 ++ w.extractLsb 15 11) false) ∧
  (∀ s : State, s.ready = true → Memory.readWord s.mem s.pc = some 0x188D058E#32 →
    s.readVR 77 = ofLanes 0x3F800000#32 0x40400000#32 0xC0400000#32 0x7FC00000#32 →
    s.readVR 64 = ofLanes 0x40000000#32 0x40000000#32 0x40000000#32 0x40000000#32 →
    ∃ t, step s = .next t ∧
      t.readVR 100 = ofLanes 0x00000000#32 0x80000000#32 0x40000000#32 0xC0000000#32 ∧ t.cr6 = s.cr6 ∧ t.pc = s.pc + 4#32)

/-- R64 (with `Rc` where the source puts it; log entry 7): `vcmpbfp128.`, from the word in memory to the state after the step, and the rule's example. -/
def Obligations.StepOfVcmpbfp128Record : Prop :=
  (∀ (s : State) (w : Word), s.ready = true → Memory.readWord s.mem s.pc = some w → w &&& 0xFC0003D0#32 = 0x18000190#32 →
    ∃ t, step s = .next t ∧
      BoundsEffect s t (w.extractLsb 3 2 ++ w.extractLsb 25 21)
        (w.extractLsb 10 10 ++ w.extractLsb 5 5 ++ w.extractLsb 20 16) (w.extractLsb 1 0 ++ w.extractLsb 15 11) true) ∧
  (∀ s : State, s.ready = true → Memory.readWord s.mem s.pc = some 0x188D059E#32 →
    s.readVR 77 = ofLanes 0x3F800000#32 0x40400000#32 0xC0400000#32 0x7FC00000#32 →
    s.readVR 64 = ofLanes 0x40000000#32 0x40000000#32 0x40000000#32 0x40000000#32 →
    ∃ t, step s = .next t ∧
      t.readVR 100 = ofLanes 0x00000000#32 0x80000000#32 0x40000000#32 0xC0000000#32 ∧
      t.cr6 = { lt := false, gt := false, eq := false, so := false })

/-! ### Fetch, stops and memory -/

/-- The shape of a step (R8, decision D26): where the four bytes at the pc decode to an instruction, and a step may be asked for, the step is that
instruction's execution at that very state; execution itself advances the pc. -/
def Obligations.StepRunsTheDecodedInstruction : Prop :=
  ∀ (s : State) (b0 b1 b2 b3 : Byte) (i : Instr),
    s.refused = false → s.endPc ≠ some s.pc → s.pc.toNat % 4 = 0 →
    Memory.read s.mem s.pc = some b0 → Memory.read s.mem (s.pc + 1#32) = some b1 →
    Memory.read s.mem (s.pc + 2#32) = some b2 → Memory.read s.mem (s.pc + 3#32) = some b3 →
    decodeBytes [b0, b1, b2, b3] = .ok (i, []) →
    i.wf = true ∧ step s = exec i s

/-- The order the spec decides on (R74, decision D18): the tests of a step in their order, for a state whose mark is clear: the end of the run, the alignment, the fetch,
the decoding; and where none of them stops the step, it is the execution of the decoded instruction. -/
def Obligations.StopsAreTestedInOrder : Prop :=
  ∀ s : State, s.refused = false →
    (s.endPc = some s.pc → step s = .fault .endOfRun) ∧
    (s.endPc ≠ some s.pc → s.pc.toNat % 4 ≠ 0 → step s = .refused (.misalignedPc s.pc)) ∧
    (s.endPc ≠ some s.pc → s.pc.toNat % 4 = 0 → Memory.readWord s.mem s.pc = none →
      step s = .fault (.unmappedFetch s.pc)) ∧
    (s.endPc ≠ some s.pc → s.pc.toNat % 4 = 0 → ∀ w, Memory.readWord s.mem s.pc = some w →
      (∀ e, decode w = .error e → step s = .refused (.undecodable s.pc w)) ∧
      (∀ i, decode w = .ok i → step s = exec i s))

/-- The refusal the spec decides on (R47, R71, decision D12): a word of none of the forms is refused by name, with its address, and sets the mark; it is no trap, no
no-operation and no end of the run: everything else stays as it was. -/
def Obligations.OtherWordsAreRefusedAndMarked : Prop :=
  ∀ (s : State) (w : Word), s.ready = true → Memory.readWord s.mem s.pc = some w →
    ((w.extractLsb 31 26 ≠ 4#6 ∧ w.extractLsb 31 26 ≠ 6#6) ∨
      (w.extractLsb 31 26 = 4#6 ∧ w.extractLsb 9 0 ≠ 966#10) ∨
      (w.extractLsb 31 26 = 6#6 ∧ w.extractLsb 9 6 ≠ 6#4)) →
    step s = .refused (.undecodable s.pc w) ∧
    (afterStep s).refused = true ∧
    (∀ n, (afterStep s).readVR n = s.readVR n) ∧ (afterStep s).cr6 = s.cr6 ∧ (afterStep s).pc = s.pc ∧
    (∀ a, Memory.read (afterStep s).mem a = Memory.read s.mem a) ∧ (afterStep s).isFinal = false

/-- The stuck state the spec decides on (R72, decisions D9 and D18): where any of the four bytes at the pc is unmapped and the pc is not `END_PC`, the agent has no step: it is stuck, it
stays as it is, and the state is not final. -/
def Obligations.UnmappedFetchIsStuck : Prop :=
  ∀ s : State, s.ready = true →
    (Memory.read s.mem s.pc = none ∨ Memory.read s.mem (s.pc + 1#32) = none ∨
      Memory.read s.mem (s.pc + 2#32) = none ∨ Memory.read s.mem (s.pc + 3#32) = none) →
    step s = .fault (.unmappedFetch s.pc) ∧ s.isStuck = true ∧ s.isFinal = false ∧ afterStep s = s

/-- What the spec derives and decides of alignment (R28, decision D8): from a pc that is a multiple of 4 every instruction
leaves one; a state whose pc is not is no launch state, and a step asked of it is refused by name. -/
def Obligations.PcStaysAlignedAndMisalignedPcIsRefused : Prop :=
  (∀ (i : Instr) (s : State), s.pc.toNat % 4 = 0 → ∃ t, exec i s = .next t ∧ t.pc.toNat % 4 = 0) ∧
  (∀ (s : State) (prog : List Word), s.pc.toNat % 4 ≠ 0 → ¬ Launch s prog) ∧
  (∀ s : State, s.refused = false → s.endPc ≠ some s.pc → s.pc.toNat % 4 ≠ 0 → step s = .refused (.misalignedPc s.pc))

/-- The mark of the spec's refusal discipline (R24, derived): it is never cleared, and once it is set no step is taken and nothing changes any more. (That a marked
state refuses every step is the model's reading, log entry 4.) -/
def Obligations.RefusedMarkIsNeverCleared : Prop :=
  (∀ s : State, s.refused = true → step s = .refused .markedRefused ∧ ∀ n, (afterStep^[n]) s = s) ∧
  (∀ (s : State) (r : Refusal), step s = .refused r → ∀ n, ((afterStep^[n + 1]) s).refused = true)

/-- The byte order the spec decides on (R26, decision D7; R27) and the model's canonical form (log entry 1): a word placed in memory lies there with its most significant byte at the lowest address, it is what a fetch at
that address reads, every other byte reads as before, and the canonical form is kept. -/
def Obligations.WordsLieInMemoryBigEndian : Prop :=
  ∀ (m : Memory) (a : Addr) (w : Word),
    let m' := Memory.writeWord m a w
    Memory.read m' a = some (w.extractLsb 31 24) ∧ Memory.read m' (a + 1#32) = some (w.extractLsb 23 16) ∧
    Memory.read m' (a + 2#32) = some (w.extractLsb 15 8) ∧ Memory.read m' (a + 3#32) = some (w.extractLsb 7 0) ∧
    Memory.readWord m' a = some w ∧
    (∀ c, c ≠ a → c ≠ a + 1#32 → c ≠ a + 2#32 → c ≠ a + 3#32 → Memory.read m' c = Memory.read m c) ∧
    (Memory.wf m = true → Memory.wf m' = true)

/-- The model's loader (log entry 3): from any state, a table word of 32 bits that decodes is what the very next step runs,
and the loader leaves the registers, CR6 and every other byte of memory as they were. -/
def Obligations.PlacedWordIsTheNextInstruction : Prop :=
  ∀ (s : State) (w : Nat) (i : Instr), w < 2 ^ 32 → decode (BitVec.ofNat 32 w) = .ok i →
    let u := s.withFetchWord 32 w
    decodeTableWord 32 w = some i ∧ step u = exec i u ∧
    (∀ n, u.readVR n = s.readVR n) ∧ u.cr6 = s.cr6 ∧
    (s.pc.toNat % 4 = 0 → u.pc = s.pc) ∧
    (∀ c, c ≠ u.pc → c ≠ u.pc + 1#32 → c ≠ u.pc + 2#32 → c ≠ u.pc + 3#32 → Memory.read u.mem c = Memory.read s.mem c)

/-! ### Invariants and runs -/

/-- Every step that gives a next state keeps the invariant: the text in its canonical form (log entry 1), the pc a multiple
of 4 (R28, decision D8), the mark clear (R24). -/
def Obligations.EveryStepKeepsTheInvariant : Prop :=
  ∀ s t : State, s.inv = true → step s = .next t → t.inv = true

/-- The model's reset (log entries 1, 3 and 5, its own choices): the invariant holds, nothing is mapped, no end is set, and
every register reads as zero. -/
def Obligations.ResetMeetsTheInvariant : Prop :=
  State.reset.inv = true ∧ State.reset.mem = [] ∧ State.reset.endPc = none ∧ State.reset.pc = 0 ∧
  (∀ n, State.reset.readVR n = 0) ∧ State.reset.cr6.bits = 0b0000#4

/-- What the spec derives of runs (R17, R18, R36, decisions D2 and D11): along every run of `n` steps the pc falls through by `4n` modulo `2^PC_BITS`, and the program text, the end
of the run and the mark stay as they were; so every fetch of an address reads the same bytes. -/
def Obligations.RunsFallThroughAnUnchangingText : Prop :=
  ∀ (n : Nat) (s t : State), Host.Core.run Sys2Proof.core n s = .next t →
    t.pc = s.pc + BitVec.ofNat 32 (4 * n) ∧
    (∀ a, Memory.read t.mem a = Memory.read s.mem a) ∧ t.mem = s.mem ∧ t.endPc = s.endPc ∧ t.refused = s.refused

/-- A register that no instruction of the text names as its destination holds its launch value at the end of every run: only
the executed instructions' destinations change (derived from R20 along runs). -/
def Obligations.RunsChangeOnlyDestinations : Prop :=
  ∀ (n : Nat) (s t : State) (r : VRNum),
    (∀ k w i, k < n → Memory.readWord s.mem (s.pc + BitVec.ofNat 32 (4 * k)) = some w → decode w = .ok i →
      i.vd ≠ r) →
    Host.Core.run Sys2Proof.core n s = .next t → t.readVR r = s.readVR r

/-- The end of a run as the spec decides and derives it (R87, R88, decisions D22 and D23): a program of decodable words launched under the premises of R87 reaches `END_PC` after exactly as many steps as it
has words, and there the state is final. From any registers and any CR6. (A program of `2^30` words or more fills the
address space of 32-bit addresses, and its `END_PC` is an address inside it, so R88's own count does not apply to it.) -/
def Obligations.LaunchedProgramsReachTheirEnd : Prop :=
  ∀ (s : State) (prog : List Word), Launch s prog → prog.length < 2 ^ 30 → (∀ w ∈ prog, ∃ i, decode w = .ok i) →
    (∀ k, k < prog.length → ∃ t, Host.Core.run Sys2Proof.core k s = .next t ∧ t.isFinal = false ∧
      t.pc = s.pc + BitVec.ofNat 32 (4 * k) ∧ ∃ u, step t = .next u) ∧
    ∃ t, Host.Core.run Sys2Proof.core prog.length s = .next t ∧ t.isFinal = true ∧ step t = .fault .endOfRun ∧
      Host.Core.run Sys2Proof.core (prog.length + 1) s = .fault .endOfRun
end

