-- ==== Sys2Proof/Laws/Decode.lean ====
section
/-! SUPPORT. What the decoder can answer, said once. -/

namespace Sys2Proof

/-! ### Byte order -/

/-- Which byte a bit of an assembled word lies in (R26). -/
theorem getLsbD_wordOfBytes (b0 b1 b2 b3 : Byte) (i : Nat) :
    (wordOfBytes b0 b1 b2 b3).getLsbD i =
      if i < 8 then b3.getLsbD i else if i < 16 then b2.getLsbD (i - 8)
      else if i < 24 then b1.getLsbD (i - 16) else b0.getLsbD (i - 24) := by
  have h : (wordOfBytes b0 b1 b2 b3).getLsbD i = (b0 ++ b1 ++ b2 ++ b3 : BitVec (8 + 8 + 8 + 8)).getLsbD i := rfl
  rw [h]
  simp only [BitVec.getLsbD_append, Nat.sub_sub]
  split_ifs <;> first | rfl | omega

/-- The bytes of a word, put together again, are the word (R26). -/
theorem wordOfBytes_byteOfWord (w : Word) :
    wordOfBytes (byteOfWord w 0) (byteOfWord w 1) (byteOfWord w 2) (byteOfWord w 3) = w := by
  apply BitVec.eq_of_getLsbD_eq
  intro i hi
  simp only [getLsbD_wordOfBytes, byteOfWord, BitVec.getLsbD_extractLsb']
  split_ifs
  · simp [*]
  · rw [show 24 - 8 * 2 + (i - 8) = i by omega]; simp; omega
  · rw [show 24 - 8 * 1 + (i - 16) = i by omega]; simp; omega
  · rw [show 24 - 8 * 0 + (i - 24) = i by omega]; simp; omega

/-! ### The 7-bit register numbers of form VX128_R, bit by bit (R42) -/

theorem getLsbD_vxVD (w : Word) (i : Nat) (hi : i < 7) :
    (vxVD w).getLsbD i = if i < 5 then w.getLsbD (21 + i) else w.getLsbD (2 + (i - 5)) := by
  have h : (vxVD w).getLsbD i =
      (w.extractLsb' 2 2 ++ w.extractLsb' 21 5 : BitVec (2 + 5)).getLsbD i := rfl
  rw [h, BitVec.getLsbD_append]
  simp only [BitVec.getLsbD_extractLsb']
  split_ifs <;> simp <;> omega

theorem getLsbD_vxVB (w : Word) (i : Nat) (hi : i < 7) :
    (vxVB w).getLsbD i = if i < 5 then w.getLsbD (11 + i) else w.getLsbD (i - 5) := by
  have h : (vxVB w).getLsbD i =
      (w.extractLsb' 0 2 ++ w.extractLsb' 11 5 : BitVec (2 + 5)).getLsbD i := rfl
  rw [h, BitVec.getLsbD_append]
  simp only [BitVec.getLsbD_extractLsb']
  split_ifs <;> simp <;> omega

theorem getLsbD_vxVA (w : Word) (i : Nat) (hi : i < 7) :
    (vxVA w).getLsbD i = if i < 5 then w.getLsbD (16 + i) else if i = 5 then w.getLsbD 5 else w.getLsbD 10 := by
  have h : (vxVA w).getLsbD i =
      (w.extractLsb' 10 1 ++ w.extractLsb' 5 1 ++ w.extractLsb' 16 5 : BitVec (1 + 1 + 5)).getLsbD i := rfl
  rw [h, BitVec.getLsbD_append, BitVec.getLsbD_append]
  simp only [BitVec.getLsbD_extractLsb']
  interval_cases i <;> rfl

/-! ### The decoder -/

/-- A word that decodes is of one of the four rows of R46, with that row's operands. -/
theorem decode_ok_cases {w : Word} {i : Instr} (h : decode w = .ok i) :
    (w &&& maskVC = matchVC ∧ i = .vcmpbfp (vcVD w) (vcVA w) (vcVB w)) ∨
    (w &&& maskVC = matchVCRc ∧ i = .vcmpbfpRc (vcVD w) (vcVA w) (vcVB w)) ∨
    (w &&& maskVX = matchVX ∧ i = .vcmpbfp128 (vxVD w) (vxVA w) (vxVB w)) ∨
    (w &&& maskVX = matchVXRc ∧ i = .vcmpbfp128Rc (vxVD w) (vxVA w) (vxVB w)) := by
  unfold decode at h
  split_ifs at h with h1 h2 h3 h4
  · exact .inl ⟨h1, (Except.ok.inj h).symm⟩
  · exact .inr (.inl ⟨h2, (Except.ok.inj h).symm⟩)
  · exact .inr (.inr (.inl ⟨h3, (Except.ok.inj h).symm⟩))
  · exact .inr (.inr (.inr ⟨h4, (Except.ok.inj h).symm⟩))

/-- A word that does not decode is of none of the four rows (R47). -/
theorem decode_error_cases {w : Word} {e : DecodeReject} (h : decode w = .error e) :
    w &&& maskVC ≠ matchVC ∧ w &&& maskVC ≠ matchVCRc ∧ w &&& maskVX ≠ matchVX ∧ w &&& maskVX ≠ matchVXRc ∧
      e = rejectOf w := by
  unfold decode at h
  split_ifs at h with h1 h2 h3 h4
  exact ⟨h1, h2, h3, h4, (Except.error.inj h).symm⟩

/-- Four bytes decode as the word they make (R38). -/
theorem decodeBytes_four (b0 b1 b2 b3 : Byte) (rest : List Byte) :
    decodeBytes (b0 :: b1 :: b2 :: b3 :: rest) = (decode (wordOfBytes b0 b1 b2 b3)).map fun i => (i, rest) := by
  simp only [decodeBytes]
  split <;> simp_all [Except.map]

end Sys2Proof
end

