-- ==== Sys2Proof/Laws/Memory.lean ====
section
/-! SUPPORT. The laws of memory: read after write, the frame of a write, and that every operation keeps the canonical form. -/

namespace Sys2Proof.Machine

/-! ### One cell -/

theorem readCell_writeCell_same (m : Memory) (a : Nat) (b : Byte) : Memory.readCell (Memory.writeCell m a b) a = some b := by
  induction m with
  | nil => simp [Memory.writeCell, Memory.readCell]
  | cons c rest ih =>
    obtain ⟨k, v⟩ := c
    simp only [Memory.writeCell]
    split_ifs with h1 h2
    · simp [Memory.readCell]
    · simp [Memory.readCell]
    · simp [Memory.readCell, Ne.symm h2, ih]

theorem readCell_writeCell_other (m : Memory) (a c : Nat) (b : Byte) (h : c ≠ a) :
    Memory.readCell (Memory.writeCell m a b) c = Memory.readCell m c := by
  induction m with
  | nil => simp [Memory.writeCell, Memory.readCell, Ne.symm h]
  | cons d rest ih =>
    obtain ⟨k, v⟩ := d
    simp only [Memory.writeCell]
    split_ifs with h1 h2
    · simp [Memory.readCell, Ne.symm h]
    · subst h2; simp [Memory.readCell, Ne.symm h]
    · simp [Memory.readCell, ih]

theorem risingFrom_writeCell (m : Memory) (lo a : Nat) (b : Byte) (hm : Memory.risingFrom lo m = true)
    (hlo : lo ≤ a) (ha : a < 2 ^ 32) : Memory.risingFrom lo (Memory.writeCell m a b) = true := by
  induction m generalizing lo with
  | nil => simpa [Memory.writeCell, Memory.risingFrom, hlo] using ha
  | cons c rest ih =>
    obtain ⟨k, v⟩ := c
    simp only [Memory.risingFrom, Bool.and_eq_true, decide_eq_true_eq] at hm
    obtain ⟨⟨hk, hk'⟩, hr⟩ := hm
    simp only [Memory.writeCell]
    split_ifs with h1 h2
    · simp [Memory.risingFrom, hlo, hr, Nat.succ_le_iff.mpr h1]; omega
    · subst h2; simpa [Memory.risingFrom, hlo, hr] using ha
    · simp only [Memory.risingFrom, Bool.and_eq_true, decide_eq_true_eq]
      exact ⟨⟨hk, hk'⟩, ih (k + 1) hr (by omega)⟩

/-! ### One byte at an address of the machine -/

@[simp] theorem read_write_same (m : Memory) (a : Addr) (b : Byte) : Memory.read (Memory.write m a b) a = some b :=
  readCell_writeCell_same m a.toNat b

theorem read_write_other (m : Memory) (a c : Addr) (b : Byte) (h : c ≠ a) :
    Memory.read (Memory.write m a b) c = Memory.read m c :=
  readCell_writeCell_other m a.toNat c.toNat b fun e => h (BitVec.eq_of_toNat_eq e)

/-- A write keeps the canonical form. -/
theorem wf_write (m : Memory) (a : Addr) (b : Byte) (h : Memory.wf m = true) : Memory.wf (Memory.write m a b) = true :=
  risingFrom_writeCell m 0 a.toNat b h (Nat.zero_le _) a.isLt

/-- A word's write keeps the canonical form. -/
theorem wf_writeWord (m : Memory) (a : Addr) (w : Word) (h : Memory.wf m = true) :
    Memory.wf (Memory.writeWord m a w) = true :=
  wf_write _ _ _ (wf_write _ _ _ (wf_write _ _ _ (wf_write _ _ _ h)))

/-- Reset's memory, with nothing listed, is in the canonical form. -/
theorem wf_empty : Memory.wf [] = true := rfl

/-- An address the canonical form does not reach below `lo` is unmapped. -/
theorem readCell_below (m : Memory) (lo a : Nat) (hm : Memory.risingFrom lo m = true) (ha : a < lo) :
    Memory.readCell m a = none := by
  induction m generalizing lo with
  | nil => rfl
  | cons c rest ih =>
    obtain ⟨k, v⟩ := c
    simp only [Memory.risingFrom, Bool.and_eq_true, decide_eq_true_eq] at hm
    have hne : k ≠ a := by omega
    simp [Memory.readCell, hne, ih (k + 1) hm.2 (by omega)]

/-- Two memories in canonical form that read alike are the same list. -/
theorem eq_of_readCell_eq (m m' : Memory) (lo : Nat) (hm : Memory.risingFrom lo m = true)
    (hm' : Memory.risingFrom lo m' = true) (h : ∀ a, Memory.readCell m a = Memory.readCell m' a) : m = m' := by
  induction m generalizing lo m' with
  | nil =>
    cases m' with
    | nil => rfl
    | cons c rest => simpa [Memory.readCell] using h c.1
  | cons c rest ih =>
    obtain ⟨k, v⟩ := c
    cases m' with
    | nil => simpa [Memory.readCell] using h k
    | cons c' rest' =>
      obtain ⟨k', v'⟩ := c'
      simp only [Memory.risingFrom, Bool.and_eq_true, decide_eq_true_eq] at hm hm'
      have hk : k = k' := by
        rcases Nat.lt_trichotomy k k' with hlt | heq | hgt
        · have := h k
          simp [Memory.readCell, Nat.ne_of_gt hlt, readCell_below rest' (k' + 1) k hm'.2 (by omega)] at this
        · exact heq
        · have := h k'
          simp [Memory.readCell, Nat.ne_of_gt hgt, readCell_below rest (k + 1) k' hm.2 (by omega)] at this
      subst hk
      have hv : v = v' := by simpa [Memory.readCell] using h k
      subst hv
      refine congrArg _ (ih rest' (k + 1) hm.2 hm'.2 fun a => ?_)
      by_cases ha : k = a
      · subst ha
        rw [readCell_below rest (k + 1) k hm.2 (by omega), readCell_below rest' (k + 1) k hm'.2 (by omega)]
      · simpa [Memory.readCell, ha] using h a

/-! ### A word -/

/-- `MemRead(a, 4)` answers exactly where the four bytes are mapped, with the byte at `a` most significant (R27). -/
theorem readWord_eq_some_iff (m : Memory) (a : Addr) (w : Word) :
    Memory.readWord m a = some w ↔ ∃ b0 b1 b2 b3, Memory.read m a = some b0 ∧ Memory.read m (a + 1#32) = some b1 ∧
      Memory.read m (a + 2#32) = some b2 ∧ Memory.read m (a + 3#32) = some b3 ∧ wordOfBytes b0 b1 b2 b3 = w := by
  unfold Memory.readWord
  split
  · next h0 h1 h2 h3 => simp [h0, h1, h2, h3]
  · next h =>
    simp only [reduceCtorEq, false_iff, not_exists]
    rintro b0 b1 b2 b3 ⟨h0, h1, h2, h3, -⟩
    exact h _ _ _ _ h0 h1 h2 h3

end Sys2Proof.Machine
end

