-- ==== Sys2Proof/Laws/Operands.lean ====
section
/-! SUPPORT. Lanes, the binary32 primitives and the lane function: one lemma for what each says. -/

namespace Sys2Proof.Machine

/-! ### Lanes -/

/-- Which lane a bit of a register lies in (R11). -/
theorem getLsbD_ofLanes (w0 w1 w2 w3 : Word) (i : Nat) :
    (ofLanes w0 w1 w2 w3).getLsbD i =
      if i < 32 then w3.getLsbD i else if i < 64 then w2.getLsbD (i - 32)
      else if i < 96 then w1.getLsbD (i - 64) else w0.getLsbD (i - 96) := by
  have h : (ofLanes w0 w1 w2 w3).getLsbD i = (w0 ++ w1 ++ w2 ++ w3 : BitVec (32 + 32 + 32 + 32)).getLsbD i := rfl
  rw [h]
  simp only [BitVec.getLsbD_append, Nat.sub_sub]
  split_ifs <;> first | rfl | omega

/-- The lanes of a register built from four words are those words (R11). -/
theorem lane_ofLanes (w0 w1 w2 w3 : Word) (k : Fin 4) : lane (ofLanes w0 w1 w2 w3) k = ![w0, w1, w2, w3] k := by
  apply BitVec.eq_of_getLsbD_eq
  intro i hi
  fin_cases k <;>
    simp only [lane, BitVec.getLsbD_extractLsb', getLsbD_ofLanes, hi, decide_true, Bool.true_and] <;>
    split_ifs <;> first | omega | simp

@[simp] theorem lane_ofLanes_0 (w0 w1 w2 w3 : Word) : lane (ofLanes w0 w1 w2 w3) 0 = w0 := lane_ofLanes w0 w1 w2 w3 0
@[simp] theorem lane_ofLanes_1 (w0 w1 w2 w3 : Word) : lane (ofLanes w0 w1 w2 w3) 1 = w1 := lane_ofLanes w0 w1 w2 w3 1
@[simp] theorem lane_ofLanes_2 (w0 w1 w2 w3 : Word) : lane (ofLanes w0 w1 w2 w3) 2 = w2 := lane_ofLanes w0 w1 w2 w3 2
@[simp] theorem lane_ofLanes_3 (w0 w1 w2 w3 : Word) : lane (ofLanes w0 w1 w2 w3) 3 = w3 := lane_ofLanes w0 w1 w2 w3 3

/-- Two registers with the same four lanes are the same. -/
theorem vec_eq_of_lanes {v v' : Vec128} (h : ∀ k, lane v k = lane v' k) : v = v' := by
  apply BitVec.eq_of_getLsbD_eq
  intro i hi
  have bit : ∀ (u : Vec128) (k : Fin 4), 96 - 32 * k.val ≤ i → i < 128 - 32 * k.val →
      u.getLsbD i = (lane u k).getLsbD (i - (96 - 32 * k.val)) := by
    intro u k h1 h2
    have h3 : i - (96 - 32 * k.val) < 32 := by omega
    simp [lane, h3, Nat.add_sub_cancel' h1]
  have go : ∀ k : Fin 4, 96 - 32 * k.val ≤ i → i < 128 - 32 * k.val → v.getLsbD i = v'.getLsbD i := by
    intro k h1 h2
    rw [bit v k h1 h2, bit v' k h1 h2, h k]
  by_cases h0 : 96 ≤ i
  · exact go 0 (by simpa using h0) (by simpa using hi)
  by_cases h1 : 64 ≤ i
  · exact go 1 (by simpa using h1) (by simp; omega)
  by_cases h2 : 32 ≤ i
  · exact go 2 (by simpa using h2) (by simp; omega)
  · exact go 3 (by simp) (by simp; omega)

/-- Result lane `k` is the lane function of lane `k` of the sources (R57). -/
theorem lane_boundsVec (a b : Vec128) (k : Fin 4) : lane (boundsVec a b) k = boundsLane (lane a k) (lane b k) := by
  fin_cases k <;> simp [boundsVec]

/-- `any_out` is false exactly where every lane is zero (R57). -/
theorem anyOut_eq_false_iff (r : Vec128) : anyOut r = false ↔ ∀ k, lane r k = 0#32 := by
  simp [anyOut, Fin.forall_fin_succ, and_assoc]

/-! ### binary32 -/

/-- With `DENORM_FLUSH` false an operand lane is compared as it stands (R66(e)). -/
@[simp] theorem operandLane_eq (x : Word) : operandLane x = x := by simp [operandLane, denormFlush]

/-- The sign flip keeps the low 31 bits. -/
theorem fneg32_magnitude (x : Word) : (fneg32 x).extractLsb' 0 31 = x.extractLsb' 0 31 := by
  apply BitVec.eq_of_getLsbD_eq
  intro i hi
  have h : (0x80000000#32).getLsbD i = false := by interval_cases i <;> decide
  simp [fneg32, hi, h]

/-- The sign flip flips the sign. -/
@[simp] theorem sign32_fneg32 (x : Word) : sign32 (fneg32 x) = !sign32 x := by
  simp [sign32, fneg32]

@[simp] theorem exponent32_fneg32 (x : Word) : exponent32 (fneg32 x) = exponent32 x := by
  apply BitVec.eq_of_getLsbD_eq
  intro i hi
  have h : (0x80000000#32).getLsbD (23 + i) = false := by interval_cases i <;> decide
  simp only [exponent32, fneg32, BitVec.getLsbD_extractLsb', BitVec.getLsbD_xor, h, Bool.xor_false]

@[simp] theorem fraction32_fneg32 (x : Word) : fraction32 (fneg32 x) = fraction32 x := by
  apply BitVec.eq_of_getLsbD_eq
  intro i hi
  have h : (0x80000000#32).getLsbD (0 + i) = false := by interval_cases i <;> decide
  simp only [fraction32, fneg32, BitVec.getLsbD_extractLsb', BitVec.getLsbD_xor, h, Bool.xor_false]

@[simp] theorem isNaN32_fneg32 (x : Word) : isNaN32 (fneg32 x) = isNaN32 x := by simp [isNaN32]

/-- The key of the negation is the negated key. -/
@[simp] theorem key32_fneg32 (x : Word) : key32 (fneg32 x) = -key32 x := by
  simp only [key32, fneg32_magnitude, sign32_fneg32]
  cases sign32 x <;> split_ifs <;> simp_all

/-! ### The lane function (R56) -/

/-- What a lane comparison answers, in the two conditions it tests. -/
theorem boundsLane_eq (a b : Word) :
    boundsLane a b =
      (if isNaN32 a = true ∨ isNaN32 b = true ∨ key32 b < key32 a then 0x80000000#32 else 0#32) |||
      (if isNaN32 a = true ∨ isNaN32 b = true ∨ key32 a < -key32 b then 0x40000000#32 else 0#32) := by
  cases ha : isNaN32 a <;> cases hb : isNaN32 b <;> simp [boundsLane, fgt32, flt32, ha, hb]

end Sys2Proof.Machine
end

