-- ==== Sys2Proof/Laws/PerInstr.lean ====
section
/-! SUPPORT. Statements for all instructions, made per instruction. -/

namespace Sys2Proof.Laws

/-! ### FixedBits: the fixed bits of an instruction's word are those of its row of the opcode table -/

/-- The mask and match of an instruction's row in `spec/opcode_table.json`. -/
def FixedBits.row : Instr → Word × Word
  | .vcmpbfp _ _ _ => (0xFC0007FF#32, 0x100003C6#32)
  | .vcmpbfpRc _ _ _ => (0xFC0007FF#32, 0x100007C6#32)
  | .vcmpbfp128 _ _ _ => (0xFC0003D0#32, 0x18000180#32)
  | .vcmpbfp128Rc _ _ _ => (0xFC0003D0#32, 0x18000190#32)

/-- R46: the word of the instruction, under its row's mask, is its row's match, whatever its operands. -/
def FixedBits.Statement (i : Instr) : Prop := encode i &&& (FixedBits.row i).1 = (FixedBits.row i).2

theorem FixedBits.vcmpbfp (vd va vb : VRNum) : FixedBits.Statement (.vcmpbfp vd va vb) := by
  apply BitVec.eq_of_getLsbD_eq
  intro i hi
  interval_cases i <;> simp [FixedBits.row, encode, encodeVC, regField, bitField, rcVCBit]

theorem FixedBits.vcmpbfpRc (vd va vb : VRNum) : FixedBits.Statement (.vcmpbfpRc vd va vb) := by
  apply BitVec.eq_of_getLsbD_eq
  intro i hi
  interval_cases i <;> simp [FixedBits.row, encode, encodeVC, regField, bitField, rcVCBit]

theorem FixedBits.vcmpbfp128 (vd va vb : VRNum) : FixedBits.Statement (.vcmpbfp128 vd va vb) := by
  apply BitVec.eq_of_getLsbD_eq
  intro i hi
  interval_cases i <;> simp [FixedBits.row, encode, encodeVX, regField, bitField, rc128Bit]

theorem FixedBits.vcmpbfp128Rc (vd va vb : VRNum) : FixedBits.Statement (.vcmpbfp128Rc vd va vb) := by
  apply BitVec.eq_of_getLsbD_eq
  intro i hi
  interval_cases i <;> simp [FixedBits.row, encode, encodeVX, regField, bitField, rc128Bit]

end Sys2Proof.Laws
end

