-- ==== Sys2Proof/Laws/State.lean ====
section
/-! SUPPORT. One lemma per field per update of State, true by `rfl`, and the register file's read-after-write laws. -/

namespace Sys2Proof.Machine

/-! ### Writing a vector register -/

@[simp] theorem readVR_writeVR_same (s : State) (n : VRNum) (v : Vec128) : (s.writeVR n v).readVR n = v := by
  simp [State.readVR, State.writeVR]

theorem readVR_writeVR_other (s : State) (n m : VRNum) (v : Vec128) (h : m ≠ n) :
    (s.writeVR n v).readVR m = s.readVR m := by
  have h' : n.toNat ≠ m.toNat := fun e => h (BitVec.eq_of_toNat_eq e.symm)
  simp [State.readVR, State.writeVR, h']

@[simp] theorem writeVR_cr6 (s : State) (n : VRNum) (v : Vec128) : (s.writeVR n v).cr6 = s.cr6 := rfl
@[simp] theorem writeVR_pc (s : State) (n : VRNum) (v : Vec128) : (s.writeVR n v).pc = s.pc := rfl
@[simp] theorem writeVR_mem (s : State) (n : VRNum) (v : Vec128) : (s.writeVR n v).mem = s.mem := rfl
@[simp] theorem writeVR_endPc (s : State) (n : VRNum) (v : Vec128) : (s.writeVR n v).endPc = s.endPc := rfl
@[simp] theorem writeVR_refused (s : State) (n : VRNum) (v : Vec128) : (s.writeVR n v).refused = s.refused := rfl

/-! ### Writing CR6 -/

@[simp] theorem writeCR6_readVR (s : State) (f : CrField) (n : VRNum) : (s.writeCR6 f).readVR n = s.readVR n := rfl
@[simp] theorem writeCR6_cr6 (s : State) (f : CrField) : (s.writeCR6 f).cr6 = f := rfl
@[simp] theorem writeCR6_pc (s : State) (f : CrField) : (s.writeCR6 f).pc = s.pc := rfl
@[simp] theorem writeCR6_mem (s : State) (f : CrField) : (s.writeCR6 f).mem = s.mem := rfl
@[simp] theorem writeCR6_endPc (s : State) (f : CrField) : (s.writeCR6 f).endPc = s.endPc := rfl
@[simp] theorem writeCR6_refused (s : State) (f : CrField) : (s.writeCR6 f).refused = s.refused := rfl

/-! ### Advancing the pc -/

@[simp] theorem advancePc_readVR (s : State) (n : VRNum) : s.advancePc.readVR n = s.readVR n := rfl
@[simp] theorem advancePc_cr6 (s : State) : s.advancePc.cr6 = s.cr6 := rfl
@[simp] theorem advancePc_pc (s : State) : s.advancePc.pc = s.pc + 4#32 := rfl
@[simp] theorem advancePc_mem (s : State) : s.advancePc.mem = s.mem := rfl
@[simp] theorem advancePc_endPc (s : State) : s.advancePc.endPc = s.endPc := rfl
@[simp] theorem advancePc_refused (s : State) : s.advancePc.refused = s.refused := rfl

/-! ### Setting the mark -/

@[simp] theorem markRefused_readVR (s : State) (n : VRNum) : s.markRefused.readVR n = s.readVR n := rfl
@[simp] theorem markRefused_cr6 (s : State) : s.markRefused.cr6 = s.cr6 := rfl
@[simp] theorem markRefused_pc (s : State) : s.markRefused.pc = s.pc := rfl
@[simp] theorem markRefused_mem (s : State) : s.markRefused.mem = s.mem := rfl
@[simp] theorem markRefused_endPc (s : State) : s.markRefused.endPc = s.endPc := rfl
@[simp] theorem markRefused_refused (s : State) : s.markRefused.refused = true := rfl

/-- A marked state is its own marking. -/
theorem markRefused_of_refused (s : State) (h : s.refused = true) : s.markRefused = s := by
  cases s; simp_all [State.markRefused]

/-! ### Placing a word -/

@[simp] theorem placeWord_readVR (s : State) (w : Word) (n : VRNum) : (placeWord s w).readVR n = s.readVR n := rfl
@[simp] theorem placeWord_cr6 (s : State) (w : Word) : (placeWord s w).cr6 = s.cr6 := rfl
@[simp] theorem placeWord_pc (s : State) (w : Word) : (placeWord s w).pc = alignedPc s.pc := rfl
@[simp] theorem placeWord_mem (s : State) (w : Word) :
    (placeWord s w).mem = Memory.writeWord s.mem (alignedPc s.pc) w := rfl
@[simp] theorem placeWord_refused (s : State) (w : Word) : (placeWord s w).refused = false := rfl

theorem placeWord_endPc_ne (s : State) (w : Word) : (placeWord s w).endPc ≠ some (placeWord s w).pc := by
  simp only [placeWord]
  split <;> simp_all

end Sys2Proof.Machine
end

