-- ==== Sys2Proof/Laws/VectorCompareBounds.lean ====
section
/-! SUPPORT. What the execution template (R59) leaves in each field, so that no later proof unfolds it. -/

namespace Sys2Proof.Machine

variable (vd va vb : VRNum) (rc : Bool) (s : State)

@[simp] theorem execBounds_readVR_dest :
    (execBounds vd va vb rc s).readVR vd = boundsVec (s.readVR va) (s.readVR vb) := by
  simp [execBounds]

theorem execBounds_readVR_other (n : VRNum) (h : n ≠ vd) : (execBounds vd va vb rc s).readVR n = s.readVR n := by
  cases rc <;> simp [execBounds, readVR_writeVR_other _ _ _ _ h]

@[simp] theorem execBounds_cr6 :
    (execBounds vd va vb rc s).cr6 =
      if rc then crOfAnyOut (anyOut (boundsVec (s.readVR va) (s.readVR vb))) else s.cr6 := by
  cases rc <;> simp [execBounds]

@[simp] theorem execBounds_pc : (execBounds vd va vb rc s).pc = s.pc + 4#32 := by cases rc <;> simp [execBounds]
@[simp] theorem execBounds_mem : (execBounds vd va vb rc s).mem = s.mem := by cases rc <;> simp [execBounds]
@[simp] theorem execBounds_endPc : (execBounds vd va vb rc s).endPc = s.endPc := by cases rc <;> simp [execBounds]
@[simp] theorem execBounds_refused : (execBounds vd va vb rc s).refused = s.refused := by cases rc <;> simp [execBounds]

/-- Every instruction is the template at its own operands (R59). -/
theorem exec_eq (i : Instr) (s : State) : exec i s = .next (execBounds i.vd i.va i.vb i.rc s) := by
  cases i <;> rfl

end Sys2Proof.Machine
end

