-- ==== Sys2Proof/Laws/Step.lean ====
section
/-! SUPPORT. What a step can answer, said once: inversion of `nextInstr` and of `step`. -/

namespace Sys2Proof.Machine

/-! ### Alignment (R28) -/

theorem pcAligned_iff (p : Addr) : pcAligned p = true ↔ p.toNat % 4 = 0 := by simp [pcAligned]

/-- The next pc of an aligned pc is aligned. -/
theorem pcAligned_add_four (p : Addr) (h : pcAligned p = true) : pcAligned (p + 4#32) = true := by
  rw [pcAligned_iff] at *
  rw [BitVec.toNat_add]
  simp
  omega

/-- The pc a word is placed at is aligned. -/
theorem alignedPc_aligned (p : Addr) : pcAligned (alignedPc p) = true := by
  have h0 : (alignedPc p).getLsbD 0 = false := by simp [alignedPc]
  have h1 : (alignedPc p).getLsbD 1 = false := by simp [alignedPc]
  simp only [BitVec.getLsbD, Nat.testBit_eq_decide_div_mod_eq] at h0 h1
  simp [pcAligned] at *
  omega

/-- An aligned pc is where a word is placed. -/
theorem alignedPc_of_aligned (p : Addr) (h : pcAligned p = true) : alignedPc p = p := by
  have e : p.extractLsb' 0 2 = 0#2 := by
    apply BitVec.eq_of_toNat_eq; simpa [pcAligned, BitVec.extractLsb'_toNat] using h
  have h0 : p.getLsbD 0 = false := by simpa using congrArg (·.getLsbD 0) e
  have h1 : p.getLsbD 1 = false := by simpa using congrArg (·.getLsbD 1) e
  apply BitVec.eq_of_getLsbD_eq
  intro i hi
  have m : (~~~3 : Addr).getLsbD i = decide (2 ≤ i) := by interval_cases i <;> rfl
  rw [alignedPc, BitVec.getLsbD_and, m]
  rcases Nat.lt_or_ge i 2 with h2 | h2
  · interval_cases i <;> simp_all
  · simp [h2]

/-! ### The next instruction and the step -/

/-- Where `nextInstr` answers an instruction, the mark is clear, the pc is aligned and not the end, and the word at it
decodes to that instruction. -/
theorem nextInstr_ok_iff (s : State) (i : Instr) :
    nextInstr s = .ok i ↔ s.refused = false ∧ s.endPc ≠ some s.pc ∧ pcAligned s.pc = true ∧
      ∃ w, Memory.readWord s.mem s.pc = some w ∧ decode w = .ok i := by
  unfold nextInstr
  constructor
  · intro h
    split_ifs at h with h1 h2 h3
    refine ⟨by simpa using h1, h2, by simpa using h3, ?_⟩
    split at h
    · cases h
    · next w hw =>
      split at h
      · cases h
      · next j hj => exact ⟨w, hw, by rw [hj]; exact congrArg _ (Except.ok.inj h)⟩
  · rintro ⟨h1, h2, h3, w, hw, hd⟩
    simp [h1, h2, h3, hw, hd]

/-- A step gives a next state exactly where there is a next instruction, and then it is that instruction's execution. -/
theorem step_next_iff (s t : State) :
    step s = .next t ↔ ∃ i, nextInstr s = .ok i ∧ t = execBounds i.vd i.va i.vb i.rc s := by
  unfold step
  split
  · next i hi => simp [hi, exec_eq, eq_comm]
  · next f hf => simp [hf]
  · next r hr => simp [hr]

end Sys2Proof.Machine
end

