-- ==== Sys2Proof/Laws/Run.lean ====
section
/-! SUPPORT. Runs of the machine, one step taken off at either end; and what a ready state is. -/

namespace Sys2Proof.Machine

/-- What may be asked of a ready state, field by field. -/
theorem ready_iff (s : State) :
    s.ready = true ↔ s.refused = false ∧ s.endPc ≠ some s.pc ∧ pcAligned s.pc = true := by
  simp [State.ready, and_assoc]

/-- A ready state whose word decodes takes a step, and it is that instruction's execution. -/
theorem step_of_ready {s : State} {w : Word} {i : Instr} (hr : s.ready = true)
    (hw : Memory.readWord s.mem s.pc = some w) (hd : decode w = .ok i) : step s = exec i s := by
  rw [exec_eq]
  rw [ready_iff] at hr
  exact (step_next_iff s _).2 ⟨i, (nextInstr_ok_iff s i).2 ⟨hr.1, hr.2.1, hr.2.2, w, hw, hd⟩, rfl⟩

theorem run_succ_of_next {n : Nat} {s t : State} (h : step s = .next t) :
    Host.Core.run core (n + 1) s = Host.Core.run core n t := by
  have h' : core.step s = .next t := h
  simp only [Host.Core.run, h']
theorem run_succ_of_fault {n : Nat} {s : State} {f : Fault} (h : step s = .fault f) :
    Host.Core.run core (n + 1) s = .fault f := by
  have h' : core.step s = .fault f := h
  simp only [Host.Core.run, h']
theorem run_succ_of_refused {n : Nat} {s : State} {r : Refusal} (h : step s = .refused r) :
    Host.Core.run core (n + 1) s = .refused r := by
  have h' : core.step s = .refused r := h
  simp only [Host.Core.run, h']

/-- A run of one step more goes on exactly from a next state. -/
theorem run_succ_next_iff {n : Nat} {s u : State} :
    Host.Core.run core (n + 1) s = .next u ↔ ∃ t, step s = .next t ∧ Host.Core.run core n t = .next u := by
  cases h : step s with
  | next t => simp [run_succ_of_next h]
  | fault f => simp [run_succ_of_fault h]
  | refused r => simp [run_succ_of_refused h]

/-- The last step of a run, taken off at the end. -/
theorem run_succ_last {n : Nat} {s t : State} (h : Host.Core.run core n s = .next t) :
    Host.Core.run core (n + 1) s = step t := by
  induction n generalizing s with
  | zero =>
    obtain rfl : s = t := by cases h; rfl
    cases h' : step s with
    | next t => rw [run_succ_of_next h']; rfl
    | fault f => rw [run_succ_of_fault h']; rfl
    | refused r => rw [run_succ_of_refused h']; rfl
  | succ n ih =>
    obtain ⟨u, hu, hr⟩ := run_succ_next_iff.1 h
    rw [run_succ_of_next hu, ih hr]

end Sys2Proof.Machine
end

