-- ==== Sys2Proof/Tests/Slice0.lean ====
section
/-! SUPPORT. The model's own tests. Expected values are the spec's: `95_test_vectors.md` (words, lane vectors, instruction
vectors, programs), the examples of R54 and R61 to R64, or bits written out from the field tables of R39 and R40.
The `witness_` theorems show, for each statement with hypotheses, values that meet all of them. -/

namespace Sys2Proof.Tests

open Sys2Proof Sys2Proof.Machine

/-! ### Helpers -/

/-- A state after reset with some registers set and one word placed at the pc. -/
def stateWith (regs : List (VRNum × Vec128)) (w : Word) : State :=
  placeWord (regs.foldl (fun s p => s.writeVR p.1 p.2) State.reset) w

/-- A state at a pc, with CR6 all ones. -/
def stateAt (pc : Addr) : State := { State.reset with pc := pc, cr6 := { lt := true, gt := true, eq := true, so := true } }

/-- The next state of an outcome. -/
def next? : Host.Outcome State Fault Refusal → Option State
  | .next t => some t
  | _ => none

/-- The fault of an outcome. -/
def fault? : Host.Outcome State Fault Refusal → Option Fault
  | .fault f => some f
  | _ => none

/-- The refusal of an outcome. -/
def refused? : Host.Outcome State Fault Refusal → Option Refusal
  | .refused r => some r
  | _ => none

/-- The registers of R61's example: 1.0, 3.0, -3.0, NaN against 2.0 in every lane. -/
def v61 : Vec128 := ofLanes 0x3F800000 0x40400000 0xC0400000 0x7FC00000
def twos : Vec128 := ofLanes 0x40000000 0x40000000 0x40000000 0x40000000
/-- The result R61 to R64 give for them. -/
def r61 : Vec128 := ofLanes 0x00000000 0x80000000 0x40000000 0xC0000000

/-! ### Well-formedness: an ill-formed term for each check -/

theorem test_wf_vc_vd : Instr.wf (.vcmpbfp 32 0 0) = false := by decide
theorem test_wf_vc_va : Instr.wf (.vcmpbfp 0 32 0) = false := by decide
theorem test_wf_vc_vb : Instr.wf (.vcmpbfp 0 0 127) = false := by decide
theorem test_wf_vcRc_vd : Instr.wf (.vcmpbfpRc 32 0 0) = false := by decide
theorem test_wf_vcRc_va : Instr.wf (.vcmpbfpRc 0 64 0) = false := by decide
theorem test_wf_vcRc_vb : Instr.wf (.vcmpbfpRc 0 0 32) = false := by decide
theorem test_wf_admits : Instr.wf (.vcmpbfp 31 31 31) = true ∧ Instr.wf (.vcmpbfp128Rc 127 127 127) = true := by decide

/-! ### Decoding: words written out field by field from R39 and R40 -/

/-- `OPCD` 4, `VRT` 3, `VRA` 1, `VRB` 2, `Rc` 0, `XO` 966. -/
theorem test_decode_vcmpbfp : decode 0b000100_00011_00001_00010_0_1111000110 = .ok (.vcmpbfp 3 1 2) := by decide
/-- `OPCD` 4, `VRT` 6, `VRA` 5, `VRB` 5, `Rc` 1, `XO` 966. -/
theorem test_decode_vcmpbfpRc : decode 0b000100_00110_00101_00101_1_1111000110 = .ok (.vcmpbfpRc 6 5 5) := by decide
/-- `OPCD` 6, `VD128l` 1, `VA128l` 0, `VB128l` 0, `VA128H` 0, `XO` 6, `VA128h` 1, `Rc` 0, `VD128h` 1, `VB128h` 0. -/
theorem test_decode_vcmpbfp128 : decode 0b000110_00001_00000_00000_0_0110_1_0_01_00 = .ok (.vcmpbfp128 33 32 0) := by decide
/-- R54's field by field example: `VD` 100, `VA` 77, `VB` 64. -/
theorem test_decode_vcmpbfp128Rc : decode 0b000110_00100_01101_00000_1_0110_0_1_11_10 = .ok (.vcmpbfp128Rc 100 77 64) := by
  decide

/-- The encodings of `95_test_vectors.md` section 5. -/
def encodings : List (Nat × Instr) :=
  [(0x100003C6, .vcmpbfp 0 0 0), (0x100007C6, .vcmpbfpRc 0 0 0), (0x106113C6, .vcmpbfp 3 1 2), (0x106117C6, .vcmpbfpRc 3 1 2),
    (0x13FFFBC6, .vcmpbfp 31 31 31), (0x13FFFFC6, .vcmpbfpRc 31 31 31), (0x108313C6, .vcmpbfp 4 3 2)] ++
  [(0x10C52FC6, .vcmpbfpRc 6 5 5), (0x10210FC6, .vcmpbfpRc 1 1 1), (0x18000180, .vcmpbfp128 0 0 0),
    (0x18000190, .vcmpbfp128Rc 0 0 0), (0x18611180, .vcmpbfp128 3 1 2), (0x188D058E, .vcmpbfp128 100 77 64),
    (0x188D059E, .vcmpbfp128Rc 100 77 64)] ++
  [(0x1BFFFDAF, .vcmpbfp128 127 127 127), (0x1BFFFDBF, .vcmpbfp128Rc 127 127 127), (0x180005AF, .vcmpbfp128 96 96 96),
    (0x18000597, .vcmpbfp128Rc 32 64 96), (0x182001A4, .vcmpbfp128 33 32 0), (0x18A41DB0, .vcmpbfp128Rc 5 100 3),
    (0x18210990, .vcmpbfp128Rc 1 1 1)]

theorem test_encodings_decode : (encodings.all fun p => decodeTableWord 32 p.1 == some p.2) = true := by decide
theorem test_encodings_encode : (encodings.all fun p => (encode p.2).toNat == p.1) = true := by decide

/-- "Words that must not decode", same section. -/
theorem test_undecodable_words :
    ([0x100003C7, 0x100003C4, 0x100002C6, 0x140003C6, 0x18000100, 0x18000080, 0x18000380, 0x180001C0, 0x180001D0,
      0x1C000180, 0x00000000, 0xFFFFFFFF, 0x60000000].all fun w => decodeTableWord 32 w == none) = true := by decide

/-- R47: an undecodable word is rejected by the class it is of. -/
theorem test_reject_by_name : decode 0x100003C7 = .error (.extendedOpcodeVC 0x100003C7) ∧
    decode 0x180001C0 = .error (.extendedOpcodeVX 0x180001C0) ∧ decode 0x60000000 = .error (.primaryOpcode 0x60000000) := by
  decide
theorem test_reject_truncated : decodeBytes [0x10, 0x61, 0x13] = .error .truncated := by decide

/-- R26: the word `0x100003C6` lies in memory as the bytes `10 00 03 C6`. -/
theorem test_bytes_in_memory : bytesOfWord 0x100003C6 = [0x10, 0x00, 0x03, 0xC6] := by decide
/-- R26: of two instructions in memory order the first is decoded and the second is left. -/
theorem test_decode_bytes : decodeBytes [0x10, 0x61, 0x17, 0xC6, 0x18, 0x8D] = .ok (.vcmpbfpRc 3 1 2, [0x18, 0x8D]) := by
  decide

/-- R50 to R52. -/
theorem test_asm_text : asmText (.vcmpbfp128Rc 100 77 64) = some "vcmpbfp128. v100, v77, v64" := by decide
theorem test_asm_rejects : asmText (.vcmpbfp 0 32 0) = none ∧ assemble (.vcmpbfpRc 0 0 32) = none := by decide

/-! ### The lane function: `95_test_vectors.md` section 3, vectors 1 to 40 -/

def laneVectors : List (Word × Word × Word) :=
  [(0x3F800000, 0x40000000, 0x00000000), (0x40400000, 0x40000000, 0x80000000), (0xC0400000, 0x40000000, 0x40000000),
    (0x40000000, 0x40000000, 0x00000000), (0xC0000000, 0x40000000, 0x00000000), (0x00000000, 0x00000000, 0x00000000),
    (0x80000000, 0x00000000, 0x00000000), (0x00000000, 0x80000000, 0x00000000), (0x80000000, 0x80000000, 0x00000000),
    (0x3F800000, 0xBF800000, 0x80000000)] ++
  [(0x00000000, 0xBF800000, 0xC0000000), (0xBF800000, 0xBF800000, 0x40000000), (0x3F800000, 0x3F800000, 0x00000000),
    (0x7FC00000, 0x3F800000, 0xC0000000), (0x3F800000, 0x7FC00000, 0xC0000000), (0x7F800001, 0x7F800000, 0xC0000000),
    (0xFFC00000, 0xFFC00000, 0xC0000000), (0x7F800000, 0x7F800000, 0x00000000), (0xFF800000, 0x7F800000, 0x00000000),
    (0x7F800000, 0x7F7FFFFF, 0x80000000)] ++
  [(0xFF800000, 0x7F7FFFFF, 0x40000000), (0x7F7FFFFF, 0x7F800000, 0x00000000), (0x7F800000, 0xFF800000, 0x80000000),
    (0x00000000, 0xFF800000, 0xC0000000), (0x00000001, 0x00000000, 0x80000000), (0x80000001, 0x00000000, 0x40000000),
    (0x00000001, 0x00000001, 0x00000000), (0x00000002, 0x00000001, 0x80000000), (0x80000002, 0x00000001, 0x40000000),
    (0x007FFFFF, 0x00800000, 0x00000000)] ++
  [(0x3F000000, 0x3F800000, 0x00000000), (0xBF000000, 0x3F800000, 0x00000000), (0x3F800001, 0x3F800000, 0x80000000),
    (0xBF800001, 0x3F800000, 0x40000000), (0x80000000, 0x40000000, 0x00000000), (0x40000000, 0x80000000, 0x80000000),
    (0xC0000000, 0xC0000000, 0x40000000), (0x40000000, 0xC0000000, 0x80000000), (0x00000000, 0x40000000, 0x00000000),
    (0x40000000, 0x00000000, 0x80000000)]

theorem test_lane_vectors : (laneVectors.all fun v => boundsLane v.1 v.2.1 == v.2.2) = true := by decide

/-! ### Whole instructions: `95_test_vectors.md` section 4, V1 to V9 -/

def wordVectors : List (Vec128 × Vec128 × Vec128 × Bool) :=
  [(ofLanes 0x3F800000 0x3F000000 0xBF000000 0, ofLanes 0x3F800000 0x3F800000 0x3F800000 0x3F800000, 0, true),
    (ofLanes 0x3F800000 0x3F000000 0xBF000000 0, ofLanes 0x3F000000 0x3F000000 0x3F000000 0x3F000000,
      ofLanes 0x80000000 0 0 0, false),
    (ofLanes 0x7FC00000 0 0 0, ofLanes 0x7F800000 0x7F800000 0x7F800000 0x7F800000, ofLanes 0xC0000000 0 0 0, false),
    (0, ofLanes 0 0x80000000 0 0x80000000, 0, true),
    (0, ofLanes 0 0 0 0xBF800000, ofLanes 0 0 0 0xC0000000, false)] ++
  [(ofLanes 0x7F800000 0xFF800000 0x7F7FFFFF 0xFF7FFFFF, ofLanes 0x7F800000 0x7F800000 0x7F800000 0x7F800000, 0, true),
    (ofLanes 0x00000001 0x80000001 0x007FFFFF 0x807FFFFF, ofLanes 0x00800000 0x00800000 0x00800000 0x00800000, 0, true),
    (ofLanes 0x00000001 0 0 0, 0, ofLanes 0x80000000 0 0 0, false),
    (v61, twos, r61, false)]

theorem test_vector_function :
    (wordVectors.all fun v => boundsVec v.1 v.2.1 == v.2.2.1 && (!anyOut (boundsVec v.1 v.2.1)) == v.2.2.2) = true := by decide

/-- V9 with `vcmpbfp v3, v1, v2`: the result is as listed and CR6 stays `(1,1,1,1)`. -/
theorem test_exec_vcmpbfp :
    (next? (exec (.vcmpbfp 3 1 2) (((stateAt 0x1000).writeVR 1 v61).writeVR 2 twos))).map
      (fun t => (t.readVR 3, t.cr6.bits, t.pc)) = some (r61, 0b1111, 0x1004) := by decide
/-- V1 with a record form: the old `lt`, `gt`, `so` are cleared, not kept, and `eq` is set. -/
theorem test_exec_vcmpbfpRc :
    (next? (exec (.vcmpbfpRc 3 1 2) (((stateAt 0x1000).writeVR 1 (ofLanes 0x3F800000 0x3F000000 0xBF000000 0)).writeVR 2
      (ofLanes 0x3F800000 0x3F800000 0x3F800000 0x3F800000)))).map
      (fun t => (t.readVR 3, t.cr6.bits, t.pc)) = some (0, 0b0010, 0x1004) := by decide
/-- R63's example, and the last register as destination and source. -/
theorem test_exec_vcmpbfp128 :
    (next? (exec (.vcmpbfp128 100 77 64) (((stateAt 0).writeVR 77 v61).writeVR 64 twos))).map
      (fun t => (t.readVR 100, t.readVR 77, t.cr6.bits)) = some (r61, v61, 0b1111) := by decide
/-- R64's example. -/
theorem test_exec_vcmpbfp128Rc :
    (next? (exec (.vcmpbfp128Rc 100 77 64) (((stateAt 0).writeVR 77 v61).writeVR 64 twos))).map
      (fun t => (t.readVR 100, t.readVR 64, t.cr6.bits)) = some (r61, twos, 0b0000) := by decide
/-- Program P3, step 1: the destination is both sources. -/
theorem test_exec_same_register :
    (next? (exec (.vcmpbfpRc 1 1 1) ((stateAt 0).writeVR 1 (ofLanes 0x3F800000 0xBF800000 0x7FC00000 0x80000000)))).map
      (fun t => (t.readVR 1, t.cr6.bits)) = some (ofLanes 0 0x40000000 0xC0000000 0, 0b0000) := by decide
/-- Program P3, last step: the pc wraps from `FFFFFFFC` to 0 (R18). -/
theorem test_exec_pc_wraps : (next? (exec (.vcmpbfpRc 1 1 1) (stateAt 0xFFFFFFFC))).map (·.pc) = some 0 := by decide
/-- R15: condition bit 26 is `CR6.eq`. -/
theorem test_cr_bit_26 :
    (next? (exec (.vcmpbfpRc 1 1 1) (stateAt 0))).map (fun t => [t.crBit 24, t.crBit 25, t.crBit 26, t.crBit 27, t.crBit 28]) =
      some [some false, some false, some true, some false, none] := by decide

/-- R67: the four result patterns read back as `+0.0`, `-0.0`, `2.0`, `-2.0`. -/
theorem test_float_values : floatValue 0x40000000 = .finite (2 ^ 150) ∧ floatValue 0x00000001 = .finite 1 ∧
    floatValue 0xFF800000 = .negInf ∧ floatValue 0x00800000 = .finite (2 ^ 23) := by decide

/-! ### Steps and stops -/

/-- R61's example from the word in memory: fetched, decoded, executed. -/
theorem test_step_runs :
    (next? (step (stateWith [(1, v61), (2, twos)] 0x106113C6))).map (fun t => (t.readVR 3, t.pc)) = some (r61, 4) := by decide
/-- Program P4, step 2: the word is refused by its address and value, and the mark is set. -/
theorem test_step_refuses_word :
    refused? (step (placeWord (stateAt 0x104) 0x60000000)) = some (.undecodable 0x104 0x60000000) ∧
    (afterStep (placeWord (stateAt 0x104) 0x60000000)).refused = true := by decide
theorem test_step_marked : refused? (step (State.markRefused (stateWith [] 0x106113C6))) = some .markedRefused := by decide
/-- R28, R74: a misaligned pc is refused before anything is fetched. -/
theorem test_step_misaligned : refused? (step (stateAt 0x1002)) = some (.misalignedPc 0x1002) := by decide
/-- R72: nothing is mapped after reset. -/
theorem test_step_unmapped : fault? (step State.reset) = some (.unmappedFetch 0) ∧ State.reset.isStuck = true := by decide
/-- R74, R88: the end of the run is tested first, though the pc is misaligned and unmapped. -/
theorem test_step_end_first : fault? (step { stateAt 0x1002 with endPc := some 0x1002 }) = some .endOfRun := by decide
/-- The loader: the host's placed word is the next instruction, also over a set mark, an end at the pc and a misaligned pc. -/
theorem test_with_fetch_word :
    (next? (step (State.withFetchWord { stateAt 0x1002 with endPc := some 0x1000, refused := true } 32 0x18210990))).map
      (fun t => (t.readVR 1, t.cr6.bits, t.pc)) = some (0, 0b0010, 0x1004) := by decide

/-! ### Memory -/

theorem test_memory_canonical :
    Memory.writeWord (Memory.writeWord [] 8 0x01020304) 4 0x0A0B0C0D =
      [(4, 0x0A), (5, 0x0B), (6, 0x0C), (7, 0x0D), (8, 0x01), (9, 0x02), (10, 0x03), (11, 0x04)] := by decide
theorem test_memory_not_canonical : Memory.wf [(5, 0), (4, 0)] = false ∧ Memory.wf [(4, 0), (4, 1)] = false ∧
    Memory.wf [(2 ^ 32, 0)] = false ∧ Memory.wf [(2 ^ 32 - 1, 0)] = true := by decide
theorem test_partly_mapped_word : Memory.readWord [(0, 1), (1, 2), (2, 3)] 0 = none := by decide

/-! ### Witnesses: the hypotheses of the statements can be met, clause by clause -/

/-- `DecodeFollowsTheFields`: a word of each row at its boundary registers, and one of no row. -/
theorem witness_fields :
    (0x13FFFBC6#32 &&& 0xFC0007FF#32 = 0x100003C6#32) ∧ (0x13FFFFC6#32 &&& 0xFC0007FF#32 = 0x100007C6#32) ∧
    (0x1BFFFDAF#32 &&& 0xFC0003D0#32 = 0x18000180#32) ∧ (0x1BFFFDBF#32 &&& 0xFC0003D0#32 = 0x18000190#32) ∧
    decode 0x1BFFFDBF = .ok (.vcmpbfp128Rc 127 127 127) ∧ (decode 0x180001D0).toOption = none := by decide
/-- `DecodeOfEncodeIsTheInstruction`, `EncodeOfDecodeIsTheWord`. -/
theorem witness_round_trip : ∀ i ∈ [Instr.vcmpbfp 31 31 31, .vcmpbfpRc 31 0 31, .vcmpbfp128 127 127 127, .vcmpbfp128Rc 127 0 127],
    i.wf = true ∧ decode (encode i) = .ok i := by decide
/-- `FormsAddressOneRegisterFile`: the last register of form VC, the last of form VX128_R, and R55's own pair of words. -/
theorem witness_two_encodings : decode 0x13FFFBC6 = .ok (.vcmpbfp 31 31 31) ∧ decode 0x13FFFFC6 = .ok (.vcmpbfpRc 31 31 31) ∧
    decode 0x1BFFFDAF = .ok (.vcmpbfp128 127 127 127) ∧ encode (.vcmpbfp 3 1 2) = 0x106113C6 ∧
    encode (.vcmpbfp128 3 1 2) = 0x18611180 := by decide
/-- `AssemblerRejectsHighRegistersInFormVC`: just inside and just outside. -/
theorem witness_assembler : assemble (.vcmpbfp 31 31 31) = some 0x13FFFBC6 ∧ assemble (.vcmpbfp 32 31 31) = none := by decide

/-- Values that meet the hypotheses of each clause of `CornersOfTheLaneFunction`, in its order. -/
theorem witness_corners :
    (key32 0x80000000 = 0 ∧ 0 ≤ key32 0x80000000) ∧
    (key32 0xBF800000 < 0 ∧ key32 0xBF800000 ≤ key32 0xBF800000) ∧
    (key32 0xBF800000 < 0 ∧ key32 0xBF800000 < key32 0x3F7FFFFF ∧ key32 0x3F7FFFFF < -key32 0xBF800000) ∧
    (key32 0xBF800000 < 0 ∧ -key32 0xBF800000 ≤ key32 0x3F800000) ∧
    (0 ≤ key32 0x3F800000 ∧ key32 0xBF800000 = -key32 0x3F800000) ∧
    (isNaN32 0x7F800000 = false ∧ isNaN32 0xFF800000 = false ∧ isNaN32 0x00000001 = false) ∧
    (exponent32 0x7F7FFFFF ≠ 0xFF#8 ∧ exponent32 0xFF7FFFFF ≠ 0xFF#8) ∧
    (isNaN32 0x7F7FFFFF = false ∧ 0 ≤ key32 0x80000000 ∧ exponent32 0x80000000 ≠ 0xFF#8) ∧
    (isNaN32 0xFF7FFFFF = false ∧ exponent32 0xFF7FFFFF ≠ 0xFF#8) ∧
    key32 0x80000000 = 0 := by decide
/-- `NegatingAExchangesTheBits`, last clause, at the zero bound. -/
theorem witness_nonneg_bound : isNaN32 0x00000001 = false ∧ isNaN32 0x80000000 = false ∧ 0 ≤ key32 0x80000000 := by decide
/-- `FrameOfOneStep`, `StepRunsTheDecodedInstruction`, `StepOfVcmpbfp`: a ready state at R61's example. -/
theorem witness_step_vcmpbfp : ∃ s : State, s.ready = true ∧ Memory.readWord s.mem s.pc = some 0x106113C6#32 ∧
    0x106113C6#32 &&& 0xFC0007FF#32 = 0x100003C6#32 ∧ s.readVR 1 = v61 ∧ s.readVR 2 = twos ∧
    nextInstr s = .ok (.vcmpbfp 3 1 2) ∧
    Memory.read s.mem s.pc = some 0x10 ∧ Memory.read s.mem (s.pc + 1#32) = some 0x61 ∧
    Memory.read s.mem (s.pc + 2#32) = some 0x13 ∧ Memory.read s.mem (s.pc + 3#32) = some 0xC6 ∧
    decodeBytes [0x10, 0x61, 0x13, 0xC6] = .ok (.vcmpbfp 3 1 2, []) :=
  ⟨stateWith [(1, v61), (2, twos)] 0x106113C6, by decide⟩
/-- `StepOfVcmpbfpRecord`: both examples of R62. -/
theorem witness_step_vcmpbfpRc : (∃ s : State, s.ready = true ∧ Memory.readWord s.mem s.pc = some 0x106117C6#32 ∧
      0x106117C6#32 &&& 0xFC0007FF#32 = 0x100007C6#32 ∧ s.readVR 1 = v61 ∧ s.readVR 2 = twos) ∧
    ∃ s : State, s.ready = true ∧ Memory.readWord s.mem s.pc = some 0x106117C6#32 ∧
      s.readVR 1 = ofLanes 0x3F800000 0x3F000000 0xBF000000 0 ∧ s.readVR 2 = twos :=
  ⟨⟨stateWith [(1, v61), (2, twos)] 0x106117C6, by decide⟩,
    ⟨stateWith [(1, ofLanes 0x3F800000 0x3F000000 0xBF000000 0), (2, twos)] 0x106117C6, by decide⟩⟩
/-- `StepOfVcmpbfp128`. -/
theorem witness_step_vcmpbfp128 : ∃ s : State, s.ready = true ∧ Memory.readWord s.mem s.pc = some 0x188D058E#32 ∧
    0x188D058E#32 &&& 0xFC0003D0#32 = 0x18000180#32 ∧ s.readVR 77 = v61 ∧ s.readVR 64 = twos :=
  ⟨stateWith [(77, v61), (64, twos)] 0x188D058E, by decide⟩
/-- `StepOfVcmpbfp128Record`. -/
theorem witness_step_vcmpbfp128Rc : ∃ s : State, s.ready = true ∧ Memory.readWord s.mem s.pc = some 0x188D059E#32 ∧
    0x188D059E#32 &&& 0xFC0003D0#32 = 0x18000190#32 ∧ s.readVR 77 = v61 ∧ s.readVR 64 = twos :=
  ⟨stateWith [(77, v61), (64, twos)] 0x188D059E, by decide⟩
/-- `RecordFormsWriteCR6`: a record form with all lanes zero, one with a lane that is not, and a form that is no record form. -/
theorem witness_record_forms :
    (next? (exec (.vcmpbfpRc 3 1 2) State.reset)).map (fun t => [lane (t.readVR 3) 0, lane (t.readVR 3) 1,
      lane (t.readVR 3) 2, lane (t.readVR 3) 3]) = some [0, 0, 0, 0] ∧
    (next? (exec (.vcmpbfp128Rc 3 1 2) (stateWith [(1, v61), (2, twos)] 0))).map (fun t => lane (t.readVR 3) 1) =
      some 0x80000000 ∧
    Instr.rc (.vcmpbfpRc 3 1 2) = true ∧ Instr.rc (.vcmpbfp128Rc 3 1 2) = true ∧ Instr.rc (.vcmpbfp 3 1 2) = false := by decide
/-- `PlaceOfCR6InTheConditionRegister`: the bits on either side of CR6. -/
theorem witness_cr_bits : State.reset.crBit 23 = none ∧ State.reset.crBit 28 = none := by decide
/-- `NaNIsOutOfBoundsBothWays`: a NaN in lane 3 of source A, another state with another value there, and lane 0. -/
theorem witness_nan : isNaN32 (lane ((stateWith [(1, v61)] 0).readVR 1) 3) = true ∧
    (next? (exec (.vcmpbfpRc 3 1 2) (stateWith [(1, ofLanes 0x3F800000 0 0 0)] 0))).isSome = true ∧ (0 : Fin 4) ≠ 3 ∧
    lane ((stateWith [(1, ofLanes 0x3F800000 0 0 0)] 0).readVR 1) 0 = lane ((stateWith [(1, v61)] 0).readVR 1) 0 ∧
    isNaN32 (lane ((stateWith [(2, ofLanes 0xFF800001 0 0 0)] 0).readVR 2) 0) = true := by decide
/-- `SourcesAreReadBeforeTheDestinationIsWritten`: one register with a NaN, a negative zero, a negative and a positive lane. -/
theorem witness_same_sources :
    let s := stateWith [(1, ofLanes 0x7FC00000 0x80000000 0x80000001 0x3F800000)] 0
    Instr.va (.vcmpbfp 1 1 1) = Instr.vb (.vcmpbfp 1 1 1) ∧ isNaN32 (lane (s.readVR 1) 0) = true ∧
    (isNaN32 (lane (s.readVR 1) 1) = false ∧ 0 ≤ key32 (lane (s.readVR 1) 1)) ∧
    (isNaN32 (lane (s.readVR 1) 2) = false ∧ key32 (lane (s.readVR 1) 2) < 0) := by decide
/-- `ResultDependsOnTheSourcesAlone`: two states that differ in the pc, CR6 and the register numbers. -/
theorem witness_two_states :
    (stateWith [(1, v61), (2, twos)] 0).readVR 1 = (((stateAt 8).writeVR 77 v61).writeVR 64 twos).readVR 77 ∧
    (stateWith [(1, v61), (2, twos)] 0).readVR 2 = (((stateAt 8).writeVR 77 v61).writeVR 64 twos).readVR 64 := by decide
/-- `ExecutingTwiceIsExecutingOnce`. -/
theorem witness_twice : Instr.vd (.vcmpbfp128Rc 3 1 2) ≠ Instr.va (.vcmpbfp128Rc 3 1 2) ∧
    Instr.vd (.vcmpbfp128Rc 3 1 2) ≠ Instr.vb (.vcmpbfp128Rc 3 1 2) := by decide
/-- `StopsAreTestedInOrder`, `PcStaysAlignedAndMisalignedPcIsRefused`: the pcs between two aligned ones. -/
theorem witness_misaligned :
    ([0x1001, 0x1002, 0x1003].all fun a => !(stateAt a).refused && (stateAt a).endPc != some a &&
      (stateAt a).pc.toNat % 4 != 0) = true := by decide
/-- `UnmappedFetchIsStuck`: a ready state with nothing mapped, and for each of the four bytes a text with that byte alone
unmapped. -/
theorem witness_unmapped :
    State.reset.ready = true ∧
    Memory.read [(1, 0), (2, 0), (3, 0)] 0 = none ∧ Memory.read [(0, 0), (2, 0), (3, 0)] (0 + 1#32) = none ∧
    Memory.read [(0, 0), (1, 0), (3, 0)] (0 + 2#32) = none ∧ Memory.read [(0, 0), (1, 0), (2, 0)] (0 + 3#32) = none ∧
    State.ready { State.reset with mem := [(0, 0), (1, 0), (2, 0)] } = true := by decide
/-- `OtherWordsAreRefusedAndMarked`, `StopsAreTestedInOrder`: a ready state for a word of each class. -/
theorem witness_undecodable :
    ([0x1C000180, 0x100003C7, 0x180001C0].all fun w => (stateWith [] w).ready &&
      Memory.readWord (stateWith [] w).mem (stateWith [] w).pc == some w && (decode w).toOption == none) = true := by decide
/-- `OtherWordsAreRefusedAndMarked`: a word of each class. -/
theorem witness_other_words :
    ((0x1C000180#32).extractLsb 31 26 ≠ 4#6 ∧ (0x1C000180#32).extractLsb 31 26 ≠ 6#6) ∧
    ((0x100003C7#32).extractLsb 31 26 = 4#6 ∧ (0x100003C7#32).extractLsb 9 0 ≠ 966#10) ∧
    ((0x180001C0#32).extractLsb 31 26 = 6#6 ∧ (0x180001C0#32).extractLsb 9 6 ≠ 6#4) := by decide
/-- `RefusedMarkIsNeverCleared`: a marked state, and a state whose step is refused. -/
theorem witness_mark : State.reset.markRefused.refused = true ∧ (refused? (step (stateAt 1))).isSome = true := by decide
/-- `WordsLieInMemoryBigEndian`: a canonical memory, and a word that wraps at the top of the address space. -/
theorem witness_memory : Memory.wf (Memory.writeWord [] 0xFFFFFFFE 0x01020304) = true ∧
    Memory.writeWord [] 0xFFFFFFFE 0x01020304 = [(0, 3), (1, 4), (2 ^ 32 - 2, 1), (2 ^ 32 - 1, 2)] ∧
    (5 : Addr) ≠ 0 ∧ (5 : Addr) ≠ 0 + 1#32 ∧ (5 : Addr) ≠ 0 + 2#32 ∧ (5 : Addr) ≠ 0 + 3#32 := by decide
/-- `PlacedWordIsTheNextInstruction`. -/
theorem witness_placed : 0x1BFFFDBF < 2 ^ 32 ∧ decode (BitVec.ofNat 32 0x1BFFFDBF) = .ok (.vcmpbfp128Rc 127 127 127) ∧
    State.reset.pc.toNat % 4 = 0 := by decide
/-- `EveryStepKeepsTheInvariant`, `RunsFallThroughAnUnchangingText`, `RunsChangeOnlyDestinations` (for register 5). -/
theorem witness_run : (stateWith [] 0x106113C6).inv = true ∧ (next? (step (stateWith [] 0x106113C6))).isSome = true ∧
    Memory.readWord (stateWith [] 0x106113C6).mem (stateWith [] 0x106113C6).pc = some 0x106113C6 ∧
    decode 0x106113C6 = .ok (.vcmpbfp 3 1 2) ∧ Instr.vd (.vcmpbfp 3 1 2) ≠ 5 := by decide

/-- The text of program P3: three words at the top of the address space. -/
def textP3 : Memory :=
  Memory.writeWord (Memory.writeWord (Memory.writeWord [] 0xFFFFFFF4 0x10210FC6) 0xFFFFFFF8 0x18210990) 0xFFFFFFFC 0x10210FC6

/-- `LaunchedProgramsReachTheirEnd`: program P3, whose pc wraps to its `END_PC`, 0. -/
theorem witness_launch :
    Launch { stateAt 0xFFFFFFF4 with mem := textP3, endPc := some 0 } [0x10210FC6, 0x18210990, 0x10210FC6] ∧
    ∀ w ∈ [0x10210FC6#32, 0x18210990#32, 0x10210FC6#32], ∃ i, decode w = .ok i :=
  ⟨{ alignedEntry := by decide
     textMapped := fun k h => match k, h with
       | 0, _ => rfl
       | 1, _ => rfl
       | 2, _ => rfl
       | k + 3, h => absurd h (by simp)
     endPc := by decide
     vecAvailable := rfl
     notRefused := rfl },
   fun w hw => by fin_cases hw <;> exact ⟨_, rfl⟩⟩

end Sys2Proof.Tests
end

section
/-! The rows of R46 read forwards: which words decode to an instruction of form VX128_R, and that its encoder reaches
every triple of register numbers (R42, R54, R55). -/

namespace Sys2Proof

/-! ### The bit that tells the forms apart -/

/-- Where a mask is set, a masked word shows its own bit. -/
theorem getLsbD_eq_of_and_eq {w mask value : Word} {k : Nat} (h : w &&& mask = value) (hk : mask.getLsbD k = true) :
    w.getLsbD k = value.getLsbD k := by
  rw [← h, BitVec.getLsbD_and, hk, Bool.and_true]

/-- Primary opcode 4 has bit 27 clear (R43). -/
theorem opcodeBit_of_rowVC {w : Word} (h : w &&& maskVC = matchVC ∨ w &&& maskVC = matchVCRc) :
    w.getLsbD 27 = false := by
  rcases h with h | h <;> exact (getLsbD_eq_of_and_eq h (by decide)).trans (by decide)

/-- Primary opcode 6 has bit 27 set (R43). -/
theorem opcodeBit_of_rowVX {w : Word} (h : w &&& maskVX = matchVX ∨ w &&& maskVX = matchVXRc) :
    w.getLsbD 27 = true := by
  rcases h with h | h <;> exact (getLsbD_eq_of_and_eq h (by decide)).trans (by decide)

/-- No word is of both forms (R46). -/
theorem not_rowVC_of_rowVX {w : Word} (h : w &&& maskVX = matchVX ∨ w &&& maskVX = matchVXRc) :
    ¬ (w &&& maskVC = matchVC ∨ w &&& maskVC = matchVCRc) := by
  intro hvc
  exact Bool.false_ne_true ((opcodeBit_of_rowVC hvc).symm.trans (opcodeBit_of_rowVX h))

/-! ### The rows of form VX128_R decode -/

theorem decode_of_rowVX {w : Word} (h : w &&& maskVX = matchVX) :
    decode w = .ok (.vcmpbfp128 (vxVD w) (vxVA w) (vxVB w)) := by
  obtain ⟨hvc, hvcRc⟩ := not_or.1 (not_rowVC_of_rowVX (.inl h))
  rw [decode, if_neg hvc, if_neg hvcRc, if_pos h]

theorem decode_of_rowVXRc {w : Word} (h : w &&& maskVX = matchVXRc) :
    decode w = .ok (.vcmpbfp128Rc (vxVD w) (vxVA w) (vxVB w)) := by
  obtain ⟨hvc, hvcRc⟩ := not_or.1 (not_rowVC_of_rowVX (.inr h))
  have hvx : ¬ w &&& maskVX = matchVX := by rw [h]; decide
  rw [decode, if_neg hvc, if_neg hvcRc, if_neg hvx, if_pos h]

/-! ### The encoder's words lie in their rows -/

theorem matchVCRc_eq : matchVCRc = 0x100007C6#32 := by decide
theorem matchVXRc_eq : matchVXRc = 0x18000190#32 := by decide

theorem encodeVC_and_maskVC (vd va vb : VRNum) (rc : Bool) :
    encodeVC vd va vb rc &&& maskVC = if rc then matchVCRc else matchVC := by
  cases rc with
  | false => exact Laws.FixedBits.vcmpbfp vd va vb
  | true => exact (Laws.FixedBits.vcmpbfpRc vd va vb).trans matchVCRc_eq.symm

theorem encodeVX_and_maskVX (vd va vb : VRNum) (rc : Bool) :
    encodeVX vd va vb rc &&& maskVX = if rc then matchVXRc else matchVX := by
  cases rc with
  | false => exact Laws.FixedBits.vcmpbfp128 vd va vb
  | true => exact (Laws.FixedBits.vcmpbfp128Rc vd va vb).trans matchVXRc_eq.symm

/-- The two forms never share a word, whatever the operands (R55). -/
theorem encodeVC_ne_encodeVX (vd va vb vd' va' vb' : VRNum) (rc rc' : Bool) :
    encodeVC vd va vb rc ≠ encodeVX vd' va' vb' rc' := by
  intro h
  have hvc := encodeVC_and_maskVC vd va vb rc
  have hvx := encodeVX_and_maskVX vd' va' vb' rc'
  rw [h] at hvc
  refine not_rowVC_of_rowVX (w := encodeVX vd' va' vb' rc') ?_ ?_
  · cases rc' with
    | false => exact .inl hvx
    | true => exact .inr hvx
  · cases rc with
    | false => exact .inl hvc
    | true => exact .inr hvc

/-! ### The fields of form VX128_R hold whole register numbers (R42, R54) -/

@[simp] theorem vxVD_encodeVX (vd va vb : VRNum) (rc : Bool) : vxVD (encodeVX vd va vb rc) = vd := by
  apply BitVec.eq_of_getLsbD_eq
  intro i hi
  rw [getLsbD_vxVD _ _ hi]
  cases rc <;> interval_cases i <;> simp [encodeVX, regField, bitField, rc128Bit]

@[simp] theorem vxVA_encodeVX (vd va vb : VRNum) (rc : Bool) : vxVA (encodeVX vd va vb rc) = va := by
  apply BitVec.eq_of_getLsbD_eq
  intro i hi
  rw [getLsbD_vxVA _ _ hi]
  cases rc <;> interval_cases i <;> simp [encodeVX, regField, bitField, rc128Bit]

@[simp] theorem vxVB_encodeVX (vd va vb : VRNum) (rc : Bool) : vxVB (encodeVX vd va vb rc) = vb := by
  apply BitVec.eq_of_getLsbD_eq
  intro i hi
  rw [getLsbD_vxVB _ _ hi]
  cases rc <;> interval_cases i <;> simp [encodeVX, regField, bitField, rc128Bit]

theorem decode_encode_vcmpbfp128 (vd va vb : VRNum) :
    decode (encode (.vcmpbfp128 vd va vb)) = .ok (.vcmpbfp128 vd va vb) := by
  simp [encode, decode_of_rowVX (encodeVX_and_maskVX vd va vb false)]

theorem decode_encode_vcmpbfp128Rc (vd va vb : VRNum) :
    decode (encode (.vcmpbfp128Rc vd va vb)) = .ok (.vcmpbfp128Rc vd va vb) := by
  simp [encode, decode_of_rowVXRc (encodeVX_and_maskVX vd va vb true)]

/-! ### Decoded instructions are well-formed (R12, R41) -/

theorem VRNum.fitsVC_iff (n : VRNum) : n.fitsVC = true ↔ n.toNat < 32 := by simp [VRNum.fitsVC]

/-- A 5-bit field, extended to a register number, is a number form VC can name. -/
theorem VRNum.fitsVC_setWidth (x : BitVec 5) : VRNum.fitsVC (x.setWidth 7) = true := by
  rw [VRNum.fitsVC_iff, BitVec.toNat_setWidth]
  exact lt_of_le_of_lt (Nat.mod_le _ _) x.isLt

theorem decode_wf {w : Word} {i : Instr} (h : decode w = .ok i) : i.wf = true := by
  obtain ⟨-, rfl⟩ | ⟨-, rfl⟩ | ⟨-, rfl⟩ | ⟨-, rfl⟩ := decode_ok_cases h
  · simp [Instr.wf, vcVD, vcVA, vcVB, VRNum.fitsVC_setWidth]
  · simp [Instr.wf, vcVD, vcVA, vcVB, VRNum.fitsVC_setWidth]
  · rfl
  · rfl

theorem wf_vcmpbfp_iff (vd va vb : VRNum) :
    (Instr.vcmpbfp vd va vb).wf = true ↔ vd.toNat < 32 ∧ va.toNat < 32 ∧ vb.toNat < 32 := by
  simp [Instr.wf, VRNum.fitsVC_iff, and_assoc]

theorem wf_vcmpbfpRc_iff (vd va vb : VRNum) :
    (Instr.vcmpbfpRc vd va vb).wf = true ↔ vd.toNat < 32 ∧ va.toNat < 32 ∧ vb.toNat < 32 := by
  simp [Instr.wf, VRNum.fitsVC_iff, and_assoc]

end Sys2Proof
end

section
/-! What the meaning of an instruction depends on: its operands and Rc, not its form, and not the pc. -/

namespace Sys2Proof.Machine

/-- Instructions with the same operands and Rc bit have the same effect on every state (R59, R63). -/
theorem exec_congr {i j : Instr} (s : State) (hd : i.vd = j.vd) (ha : i.va = j.va) (hb : i.vb = j.vb) (hrc : i.rc = j.rc) :
    exec i s = exec j s := by
  rw [exec_eq, exec_eq, hd, ha, hb, hrc]

/-- The template at another pc ends in the same state but for the pc, four above that one (R17). -/
theorem execBounds_with_pc (vd va vb : VRNum) (rc : Bool) (s : State) (p : Addr) :
    execBounds vd va vb rc { s with pc := p } = { execBounds vd va vb rc s with pc := p + 4#32 } := by
  cases rc <;> rfl

end Sys2Proof.Machine
end

section
/-! The statements of the state's family: one register file, the frame of a step, the pc. -/

namespace Sys2Proof

open Sys2Proof.Machine

/-- Settles O6: a word of form VC decodes to a well-formed instruction, the encoder of form VX128_R gives the word for every
triple, and the forms' words differ in bit 27 of the primary opcode. -/
theorem formsAddressOneRegisterFile : Obligations.FormsAddressOneRegisterFile := by
  refine ⟨fun w vd va vb h => ?_, fun vd va vb => ⟨?_, ?_⟩, fun vd va vb s => ⟨?_, ?_, ?_, ?_⟩⟩
  · rcases h with h | h
    · exact (wf_vcmpbfp_iff vd va vb).1 (decode_wf h)
    · exact (wf_vcmpbfpRc_iff vd va vb).1 (decode_wf h)
  · exact ⟨_, decode_encode_vcmpbfp128 vd va vb⟩
  · exact ⟨_, decode_encode_vcmpbfp128Rc vd va vb⟩
  · exact encodeVC_ne_encodeVX vd va vb vd va vb false false
  · exact encodeVC_ne_encodeVX vd va vb vd va vb true true
  · exact exec_congr s rfl rfl rfl rfl
  · exact exec_congr s rfl rfl rfl rfl

/-- Settles O15: the step is the execution template at the instruction's operands, whose fields are known one by one. -/
theorem frameOfOneStep : Obligations.FrameOfOneStep := by
  intro s i hi
  have hstep : step s = .next (execBounds i.vd i.va i.vb i.rc s) := (step_next_iff s _).2 ⟨i, hi, rfl⟩
  refine ⟨_, hstep, execBounds_pc .., execBounds_readVR_dest .., execBounds_readVR_other i.vd i.va i.vb i.rc s,
    fun hrc => ?_, fun hrc => ?_, fun a => ?_, execBounds_endPc .., execBounds_refused ..⟩
  · rw [execBounds_cr6, execBounds_readVR_dest, if_pos hrc]
  · rw [execBounds_cr6, hrc, if_neg Bool.false_ne_true]
  · rw [execBounds_mem]

/-- Settles O25: every instruction is the execution template, which passes a changed pc through and adds 4. -/
theorem noInstructionReadsThePc : Obligations.NoInstructionReadsThePc := by
  intro i s p
  refine ⟨_, exec_eq i s, execBounds_pc .., ?_⟩
  rw [exec_eq, execBounds_with_pc]

end Sys2Proof
end

section
/-! The rows of form VC read forwards (R46), beside those of form VX128_R. -/

namespace Sys2Proof

theorem decode_of_rowVC {w : Word} (h : w &&& maskVC = matchVC) :
    decode w = .ok (.vcmpbfp (vcVD w) (vcVA w) (vcVB w)) := by
  rw [decode, if_pos h]

theorem decode_of_rowVCRc {w : Word} (h : w &&& maskVC = matchVCRc) :
    decode w = .ok (.vcmpbfpRc (vcVD w) (vcVA w) (vcVB w)) := by
  have hvc : ¬ w &&& maskVC = matchVC := by rw [h]; decide
  rw [decode, if_neg hvc, if_pos h]

end Sys2Proof
end

section
/-! A result lane as a pair of flags (R56, R67): bit 31 for "high", bit 30 for "low", and nothing else. -/

namespace Sys2Proof.Machine

/-- The word whose bit 31 is `high`, whose bit 30 is `low`, and whose other bits are zero. -/
def flagPair (high low : Bool) : Word :=
  (if high then 0x80000000#32 else 0#32) ||| (if low then 0x40000000#32 else 0#32)

@[simp] theorem getLsbD_flagPair_31 (high low : Bool) : (flagPair high low).getLsbD 31 = high := by
  cases high <;> cases low <;> rfl

@[simp] theorem getLsbD_flagPair_30 (high low : Bool) : (flagPair high low).getLsbD 30 = low := by
  cases high <;> cases low <;> rfl

theorem getLsbD_flagPair_of_lt {k : Nat} (high low : Bool) (hk : k < 30) : (flagPair high low).getLsbD k = false := by
  have h31 : (0x80000000#32).getLsbD k = false := by interval_cases k <;> rfl
  have h30 : (0x40000000#32).getLsbD k = false := by interval_cases k <;> rfl
  rw [flagPair, BitVec.getLsbD_or]
  cases high <;> cases low <;> simp [h31, h30]

/-- The four patterns of R67. -/
theorem flagPair_cases (high low : Bool) :
    flagPair high low = 0x00000000#32 ∨ flagPair high low = 0x80000000#32 ∨
      flagPair high low = 0x40000000#32 ∨ flagPair high low = 0xC0000000#32 := by
  cases high <;> cases low <;> decide

/-- R56 as a pair of flags. The negation of `b` stands in the second flag only. -/
theorem boundsLane_eq_flagPair (a b : Word) :
    boundsLane a b =
      flagPair (isNaN32 a || isNaN32 b || fgt32 a b) (isNaN32 a || isNaN32 b || flt32 a (fneg32 b)) := by
  simp only [boundsLane, operandLane_eq, flagPair]

/-- A NaN in either operand sets both bits (R65). -/
theorem boundsLane_of_isNaN {a b : Word} (h : isNaN32 a = true ∨ isNaN32 b = true) : boundsLane a b = 0xC0000000#32 := by
  have hun : (isNaN32 a || isNaN32 b) = true := by rwa [Bool.or_eq_true]
  rw [boundsLane_eq_flagPair, hun, Bool.true_or, Bool.true_or]
  rfl

end Sys2Proof.Machine
end

section
/-! CR6 after a record form (R58), told from the lanes of the result. -/

namespace Sys2Proof.Machine

theorem anyOut_eq_true_iff (r : Vec128) : anyOut r = true ↔ ∃ k, lane r k ≠ 0#32 := by
  rw [← Bool.not_eq_false, anyOut_eq_false_iff, not_forall]

theorem not_anyOut_eq_decide (r : Vec128) : (!anyOut r) = decide (∀ k, lane r k = 0#32) := by
  rw [Bool.eq_iff_iff, decide_eq_true_eq, Bool.not_eq_true', anyOut_eq_false_iff]

@[simp] theorem crOfAnyOut_eq (b : Bool) : (crOfAnyOut b).eq = !b := rfl

/-- The position R15 derives for `CR6.eq`. -/
theorem crBit_26 (s : State) : s.crBit 26 = some s.cr6.eq := rfl

variable (vd va vb : VRNum) (rc : Bool) (s : State)

theorem execBounds_cr6_record (hrc : rc = true) :
    (execBounds vd va vb rc s).cr6 = crOfAnyOut (anyOut ((execBounds vd va vb rc s).readVR vd)) := by
  rw [execBounds_cr6, if_pos hrc, execBounds_readVR_dest]

theorem execBounds_cr6_nonRecord (hrc : rc = false) : (execBounds vd va vb rc s).cr6 = s.cr6 := by
  rw [execBounds_cr6, hrc, if_neg Bool.false_ne_true]

end Sys2Proof.Machine
end

section
/-! The execution template (R59) as the effect predicate says it, and the step of a ready state that runs it. -/

namespace Sys2Proof.Machine

variable (vd va vb : VRNum) (rc : Bool) (s : State)

/-- Result lane `k` is the lane function of the sources' lanes `k` as they were before (R57, R59). -/
theorem lane_execBounds_dest (k : Fin 4) :
    lane ((execBounds vd va vb rc s).readVR vd) k = boundsLane (lane (s.readVR va) k) (lane (s.readVR vb) k) := by
  rw [execBounds_readVR_dest, lane_boundsVec]

theorem execBounds_sameElsewhere : SameElsewhere s (execBounds vd va vb rc s) vd :=
  ⟨execBounds_readVR_other vd va vb rc s, fun a => by rw [execBounds_mem], execBounds_mem .., execBounds_endPc ..,
    execBounds_refused ..⟩

theorem execBounds_boundsEffect : BoundsEffect s (execBounds vd va vb rc s) vd va vb rc := by
  refine ⟨lane_execBounds_dest vd va vb rc s, ?_, execBounds_pc .., execBounds_sameElsewhere vd va vb rc s⟩
  simp only [execBounds_cr6, crOfAnyOut, not_anyOut_eq_decide, lane_boundsVec]

variable {s}

/-- A ready state whose word decodes steps with the effect of the decoded instruction (R8, R59). -/
theorem step_boundsEffect_of_ready {w : Word} {i : Instr} (hr : s.ready = true)
    (hw : Memory.readWord s.mem s.pc = some w) (hd : decode w = .ok i) :
    ∃ t, step s = .next t ∧ BoundsEffect s t i.vd i.va i.vb i.rc :=
  ⟨_, (step_of_ready hr hw hd).trans (exec_eq i s), execBounds_boundsEffect i.vd i.va i.vb i.rc s⟩

end Sys2Proof.Machine
end

section
/-! The operands of the examples of R61 to R64, through the vector function and the template. -/

namespace Sys2Proof.Machine

/-- 1.0, 3.0, -3.0 and a NaN against the bound 2.0: in bounds, high, low, both. -/
theorem boundsVec_oneOfEachKind :
    boundsVec (ofLanes 0x3F800000#32 0x40400000#32 0xC0400000#32 0x7FC00000#32)
        (ofLanes 0x40000000#32 0x40000000#32 0x40000000#32 0x40000000#32) =
      ofLanes 0x00000000#32 0x80000000#32 0x40000000#32 0xC0000000#32 := by decide

/-- 1.0, 0.5, -0.5 and 0.0 are within the bound 2.0. -/
theorem boundsVec_allInBounds :
    boundsVec (ofLanes 0x3F800000#32 0x3F000000#32 0xBF000000#32 0x00000000#32)
        (ofLanes 0x40000000#32 0x40000000#32 0x40000000#32 0x40000000#32) = 0 := by decide

theorem anyOut_oneOfEachKind :
    anyOut (ofLanes 0x00000000#32 0x80000000#32 0x40000000#32 0xC0000000#32) = true :=
  (anyOut_eq_true_iff _).2 ⟨1, by rw [lane_ofLanes_1]; decide⟩

theorem anyOut_zero : anyOut 0 = false := by decide

variable {vd va vb : VRNum} {rc : Bool} {s : State} {a b r : Vec128}

theorem execBounds_readVR_dest_of_sources (ha : s.readVR va = a) (hb : s.readVR vb = b) (h : boundsVec a b = r) :
    (execBounds vd va vb rc s).readVR vd = r := by
  rw [execBounds_readVR_dest, ha, hb, h]

theorem execBounds_cr6_of_sources (ha : s.readVR va = a) (hb : s.readVR vb = b) (h : boundsVec a b = r) :
    (execBounds vd va vb true s).cr6 = crOfAnyOut (anyOut r) := by
  rw [execBounds_cr6_record _ _ _ _ _ rfl, execBounds_readVR_dest_of_sources ha hb h]

end Sys2Proof.Machine
end

section
/-! The statements of the vector-compare-bounds family. -/

namespace Sys2Proof

open Sys2Proof.Machine

/-- Settles O8: the lane function is a pair of flags, whose bits are read off one by one. -/
theorem laneFunctionSetsTheTwoBits : Obligations.LaneFunctionSetsTheTwoBits := by
  intro a b
  rw [boundsLane_eq_flagPair]
  refine ⟨?_, ?_, fun k hk => getLsbD_flagPair_of_lt _ _ hk⟩
  · rw [getLsbD_flagPair_31, Bool.or_eq_true, Bool.or_eq_true, or_assoc]
  · rw [getLsbD_flagPair_30, Bool.or_eq_true, Bool.or_eq_true, or_assoc]

/-- Settles O14: every instruction is the template at its own operands, which has the template's effect. -/
theorem everyInstructionFollowsTheTemplate : Obligations.EveryInstructionFollowsTheTemplate :=
  fun i s => ⟨_, exec_eq i s, execBounds_boundsEffect i.vd i.va i.vb i.rc s⟩

/-- Settles O16: the field a record form writes depends on `any_out` of the result alone, which is false exactly where the
four lanes are zero. -/
theorem recordFormsWriteCR6 : Obligations.RecordFormsWriteCR6 := by
  intro i s
  refine ⟨_, exec_eq i s, fun hrc hzero => ?_, fun hrc hout => ?_, fun hrc => ?_,
    execBounds_cr6_nonRecord i.vd i.va i.vb i.rc s⟩
  · rw [execBounds_cr6_record _ _ _ _ _ hrc, (anyOut_eq_false_iff _).2 hzero]
    rfl
  · rw [execBounds_cr6_record _ _ _ _ _ hrc, (anyOut_eq_true_iff _).2 hout]
    rfl
  · rw [crBit_26, execBounds_cr6_record _ _ _ _ _ hrc, crOfAnyOut_eq, not_anyOut_eq_decide]

/-- Settles O18: a NaN sets both bits of its own lane, so `any_out` is true, and every other lane is a function of its own
two source lanes. -/
theorem naNIsOutOfBoundsBothWays : Obligations.NaNIsOutOfBoundsBothWays := by
  intro i s k hnan
  have hlane : lane ((execBounds i.vd i.va i.vb i.rc s).readVR i.vd) k = 0xC0000000#32 := by
    rw [lane_execBounds_dest, boundsLane_of_isNaN hnan]
  refine ⟨_, exec_eq i s, hlane, fun hrc => ?_, fun s' t' ht' j _ ha hb => ?_⟩
  · have hout : ∃ j, lane ((execBounds i.vd i.va i.vb i.rc s).readVR i.vd) j ≠ 0#32 :=
      ⟨k, by rw [hlane]; decide⟩
    rw [execBounds_cr6_record _ _ _ _ _ hrc, crOfAnyOut_eq, (anyOut_eq_true_iff _).2 hout, Bool.not_true]
  · obtain rfl : execBounds i.vd i.va i.vb i.rc s' = t' := by
      rw [exec_eq] at ht'
      exact Host.Outcome.next.inj ht'
    rw [lane_execBounds_dest, lane_execBounds_dest, ha, hb]

/-- Settles O19: every result lane is a pair of flags, and the values of the four pairs are computed. -/
theorem resultLanesAreFlagPairs : Obligations.ResultLanesAreFlagPairs := by
  refine ⟨fun i s => ⟨_, exec_eq i s, fun k => ?_⟩, by decide, by decide, by decide, by decide⟩
  rw [lane_execBounds_dest, boundsLane_eq_flagPair]
  exact ⟨flagPair_cases _ _, fun j hj => getLsbD_flagPair_of_lt _ _ hj⟩

/-- Settles O26: a word of the row decodes to `vcmpbfp` with the fields' registers; the example is the step of
`vcmpbfp v3, v1, v2`. -/
theorem stepOfVcmpbfp : Obligations.StepOfVcmpbfp := by
  constructor
  · intro s w hr hw hrow
    exact step_boundsEffect_of_ready (i := .vcmpbfp _ _ _) hr hw (decode_of_rowVC hrow)
  · intro s hr hw ha hb
    have hd : decode 0x106113C6#32 = .ok (.vcmpbfp 3 1 2) := by decide
    have hstep : step s = .next (execBounds 3 1 2 false s) := step_of_ready hr hw hd
    exact ⟨_, hstep, execBounds_readVR_dest_of_sources ha hb boundsVec_oneOfEachKind,
      execBounds_cr6_nonRecord _ _ _ _ _ rfl, execBounds_pc ..⟩

/-- Settles O27: a word of the row decodes to `vcmpbfp.` with the fields' registers; both examples are the step of
`vcmpbfp. v3, v1, v2`. -/
theorem stepOfVcmpbfpRecord : Obligations.StepOfVcmpbfpRecord := by
  constructor
  · intro s w hr hw hrow
    rw [← matchVCRc_eq] at hrow
    exact step_boundsEffect_of_ready (i := .vcmpbfpRc _ _ _) hr hw (decode_of_rowVCRc hrow)
  · intro s hr hw hb
    have hd : decode 0x106117C6#32 = .ok (.vcmpbfpRc 3 1 2) := by decide
    have hstep : step s = .next (execBounds 3 1 2 true s) := step_of_ready hr hw hd
    refine ⟨fun ha => ⟨_, hstep, execBounds_readVR_dest_of_sources ha hb boundsVec_oneOfEachKind, ?_⟩,
      fun ha => ⟨_, hstep, execBounds_readVR_dest_of_sources ha hb boundsVec_allInBounds, ?_⟩⟩
    · rw [execBounds_cr6_of_sources ha hb boundsVec_oneOfEachKind, anyOut_oneOfEachKind]
      rfl
    · rw [execBounds_cr6_of_sources ha hb boundsVec_allInBounds, anyOut_zero]
      rfl

/-- Settles O28: a word of the row decodes to `vcmpbfp128` with the registers put together from the word's pieces; the
example is the step of `vcmpbfp128 v100, v77, v64`. -/
theorem stepOfVcmpbfp128 : Obligations.StepOfVcmpbfp128 := by
  constructor
  · intro s w hr hw hrow
    exact step_boundsEffect_of_ready (i := .vcmpbfp128 _ _ _) hr hw (decode_of_rowVX hrow)
  · intro s hr hw ha hb
    have hd : decode 0x188D058E#32 = .ok (.vcmpbfp128 100 77 64) := by decide
    have hstep : step s = .next (execBounds 100 77 64 false s) := step_of_ready hr hw hd
    exact ⟨_, hstep, execBounds_readVR_dest_of_sources ha hb boundsVec_oneOfEachKind,
      execBounds_cr6_nonRecord _ _ _ _ _ rfl, execBounds_pc ..⟩

/-- Settles O29: a word of the row, with `Rc` at IBM bit 27, decodes to `vcmpbfp128.` with the registers put together from
the word's pieces; the example is the step of `vcmpbfp128. v100, v77, v64`. -/
theorem stepOfVcmpbfp128Record : Obligations.StepOfVcmpbfp128Record := by
  constructor
  · intro s w hr hw hrow
    rw [← matchVXRc_eq] at hrow
    exact step_boundsEffect_of_ready (i := .vcmpbfp128Rc _ _ _) hr hw (decode_of_rowVXRc hrow)
  · intro s hr hw ha hb
    have hd : decode 0x188D059E#32 = .ok (.vcmpbfp128Rc 100 77 64) := by decide
    have hstep : step s = .next (execBounds 100 77 64 true s) := step_of_ready hr hw hd
    refine ⟨_, hstep, execBounds_readVR_dest_of_sources ha hb boundsVec_oneOfEachKind, ?_⟩
    rw [execBounds_cr6_of_sources ha hb boundsVec_oneOfEachKind, anyOut_oneOfEachKind]
    rfl

end Sys2Proof
end

section
/-! The statement of the exceptions' family (R70). -/

namespace Sys2Proof

open Sys2Proof.Machine

/-- Settles O24: the execution of an instruction is the next state of the template, which is neither a fault nor a refusal. -/
theorem noInstructionStops : Obligations.NoInstructionStops := by
  intro i s
  rw [exec_eq]
  refine ⟨⟨_, rfl, execBounds_pc ..⟩, fun f hfault => ?_, fun r hrefused => ?_⟩
  · cases hfault
  · cases hrefused

end Sys2Proof
end

section
/-! Masks and fields of a word (R39, R40, R46): a mask tests exactly the bits of its fields. -/

namespace Sys2Proof

/-- Two words agree under a mask exactly where they agree on every bit the mask sets. -/
theorem and_mask_eq_and_mask_iff (w v mask : Word) :
    w &&& mask = v &&& mask ↔ ∀ k, mask.getLsbD k = true → w.getLsbD k = v.getLsbD k := by
  constructor
  · intro h k hk
    rw [getLsbD_eq_of_and_eq h hk, BitVec.getLsbD_and, hk, Bool.and_true]
  · intro h
    apply BitVec.eq_of_getLsbD_eq
    intro k _
    rw [BitVec.getLsbD_and, BitVec.getLsbD_and]
    cases hk : mask.getLsbD k with
    | false => rw [Bool.and_false, Bool.and_false]
    | true => rw [h k hk]

/-- Two words agree on the field `w[hi:lo]` exactly where they agree on its bits. -/
theorem extractLsb_eq_extractLsb_iff (w v : Word) {hi lo : Nat} (hle : lo ≤ hi) :
    w.extractLsb hi lo = v.extractLsb hi lo ↔ ∀ k, lo ≤ k → k ≤ hi → w.getLsbD k = v.getLsbD k := by
  constructor
  · intro h k hlo hhi
    have hbit := congrArg (·.getLsbD (k - lo)) h
    have hlt : k - lo < hi - lo + 1 := by omega
    simpa [BitVec.extractLsb, hlt, Nat.add_sub_cancel' hlo] using hbit
  · intro h
    apply BitVec.eq_of_getLsbD_eq
    intro k hk
    simp only [BitVec.extractLsb, BitVec.getLsbD_extractLsb', hk, decide_true, Bool.true_and]
    exact h (lo + k) (by omega) (by omega)

/-- The bits of form VC's `OPCD`, `Rc` and `XO` (R39). -/
theorem getLsbD_maskVC_iff (k : Nat) :
    maskVC.getLsbD k = true ↔ (26 ≤ k ∧ k ≤ 31) ∨ (10 ≤ k ∧ k ≤ 10) ∨ (0 ≤ k ∧ k ≤ 9) := by
  rcases Nat.lt_or_ge k 32 with hk | hk
  · interval_cases k <;> decide
  · rw [BitVec.getLsbD_of_ge _ _ hk]
    simp; omega

/-- The bits of form VX128_R's `OPCD`, `XO` and `Rc` (R40). -/
theorem getLsbD_maskVX_iff (k : Nat) :
    maskVX.getLsbD k = true ↔ (26 ≤ k ∧ k ≤ 31) ∨ (6 ≤ k ∧ k ≤ 9) ∨ (4 ≤ k ∧ k ≤ 4) := by
  rcases Nat.lt_or_ge k 32 with hk | hk
  · interval_cases k <;> decide
  · rw [BitVec.getLsbD_of_ge _ _ hk]
    simp; omega

theorem and_maskVC_eq_iff (w v : Word) :
    w &&& maskVC = v &&& maskVC ↔
      w.extractLsb 31 26 = v.extractLsb 31 26 ∧ w.extractLsb 10 10 = v.extractLsb 10 10 ∧
        w.extractLsb 9 0 = v.extractLsb 9 0 := by
  rw [and_mask_eq_and_mask_iff, extractLsb_eq_extractLsb_iff w v (by decide),
    extractLsb_eq_extractLsb_iff w v (by decide), extractLsb_eq_extractLsb_iff w v (by decide)]
  simp only [getLsbD_maskVC_iff, or_imp, forall_and, and_imp]

theorem and_maskVX_eq_iff (w v : Word) :
    w &&& maskVX = v &&& maskVX ↔
      w.extractLsb 31 26 = v.extractLsb 31 26 ∧ w.extractLsb 9 6 = v.extractLsb 9 6 ∧
        w.extractLsb 4 4 = v.extractLsb 4 4 := by
  rw [and_mask_eq_and_mask_iff, extractLsb_eq_extractLsb_iff w v (by decide),
    extractLsb_eq_extractLsb_iff w v (by decide), extractLsb_eq_extractLsb_iff w v (by decide)]
  simp only [getLsbD_maskVX_iff, or_imp, forall_and, and_imp]

/-! ### The four rows, as conditions on fields (R43, R44, R46) -/

theorem rowVC_iff (w : Word) :
    w &&& maskVC = matchVC ↔ w.extractLsb 31 26 = 4#6 ∧ w.extractLsb 10 10 = 0#1 ∧ w.extractLsb 9 0 = 966#10 :=
  and_maskVC_eq_iff w matchVC

theorem rowVCRc_iff (w : Word) :
    w &&& maskVC = matchVCRc ↔ w.extractLsb 31 26 = 4#6 ∧ w.extractLsb 10 10 = 1#1 ∧ w.extractLsb 9 0 = 966#10 :=
  and_maskVC_eq_iff w matchVCRc

theorem rowVX_iff (w : Word) :
    w &&& maskVX = matchVX ↔ w.extractLsb 31 26 = 6#6 ∧ w.extractLsb 9 6 = 6#4 ∧ w.extractLsb 4 4 = 0#1 :=
  and_maskVX_eq_iff w matchVX

theorem rowVXRc_iff (w : Word) :
    w &&& maskVX = matchVXRc ↔ w.extractLsb 31 26 = 6#6 ∧ w.extractLsb 9 6 = 6#4 ∧ w.extractLsb 4 4 = 1#1 :=
  and_maskVX_eq_iff w matchVXRc

/-- A word of none of the four rows does not decode (R47). -/
theorem decode_of_no_row {w : Word} (hvc : w &&& maskVC ≠ matchVC) (hvcRc : w &&& maskVC ≠ matchVCRc)
    (hvx : w &&& maskVX ≠ matchVX) (hvxRc : w &&& maskVX ≠ matchVXRc) : decode w = .error (rejectOf w) := by
  rw [decode, if_neg hvc, if_neg hvcRc, if_neg hvx, if_neg hvxRc]

/-! ### The three classes of undecodable words (R47) -/

theorem decode_of_other_xo_vc {w : Word} (hop : w.extractLsb 31 26 = 4#6) (hxo : w.extractLsb 9 0 ≠ 966#10) :
    decode w = .error (.extendedOpcodeVC w) := by
  have hother : w.extractLsb 31 26 ≠ 6#6 := by rw [hop]; decide
  rw [decode_of_no_row (fun h => hxo ((rowVC_iff w).1 h).2.2) (fun h => hxo ((rowVCRc_iff w).1 h).2.2)
    (fun h => hother ((rowVX_iff w).1 h).1) (fun h => hother ((rowVXRc_iff w).1 h).1)]
  exact congrArg Except.error (if_pos hop)

theorem decode_of_other_xo_vx {w : Word} (hop : w.extractLsb 31 26 = 6#6) (hxo : w.extractLsb 9 6 ≠ 6#4) :
    decode w = .error (.extendedOpcodeVX w) := by
  have hother : w.extractLsb 31 26 ≠ 4#6 := by rw [hop]; decide
  rw [decode_of_no_row (fun h => hother ((rowVC_iff w).1 h).1) (fun h => hother ((rowVCRc_iff w).1 h).1)
    (fun h => hxo ((rowVX_iff w).1 h).2.1) (fun h => hxo ((rowVXRc_iff w).1 h).2.1)]
  exact congrArg Except.error ((if_neg hother).trans (if_pos hop))

theorem decode_of_other_opcode {w : Word} (hvc : w.extractLsb 31 26 ≠ 4#6) (hvx : w.extractLsb 31 26 ≠ 6#6) :
    decode w = .error (.primaryOpcode w) := by
  rw [decode_of_no_row (fun h => hvc ((rowVC_iff w).1 h).1) (fun h => hvc ((rowVCRc_iff w).1 h).1)
    (fun h => hvx ((rowVX_iff w).1 h).1) (fun h => hvx ((rowVXRc_iff w).1 h).1)]
  exact congrArg Except.error ((if_neg hvc).trans (if_neg hvx))

end Sys2Proof
end

section
/-! A word is its row and its operands: the encoder and the decoder undo each other (R54, R55). -/

namespace Sys2Proof

/-! ### The fields of form VC hold the register numbers that fit (R41, R54) -/

/-- A register number form VC can name is its low five bits (R41). -/
theorem setWidth_low_of_fitsVC {n : VRNum} (h : n.fitsVC = true) : (n.extractLsb' 0 5).setWidth 7 = n := by
  rw [VRNum.fitsVC_iff] at h
  apply BitVec.eq_of_toNat_eq
  rw [BitVec.toNat_setWidth, BitVec.extractLsb'_toNat, Nat.shiftRight_zero, Nat.mod_eq_of_lt h, Nat.mod_eq_of_lt n.isLt]

theorem extractLsb'_vd_encodeVC (vd va vb : VRNum) (rc : Bool) :
    (encodeVC vd va vb rc).extractLsb' 21 5 = vd.extractLsb' 0 5 := by
  apply BitVec.eq_of_getLsbD_eq
  intro k hk
  cases rc <;> interval_cases k <;> simp [encodeVC, regField, bitField, rcVCBit]

theorem extractLsb'_va_encodeVC (vd va vb : VRNum) (rc : Bool) :
    (encodeVC vd va vb rc).extractLsb' 16 5 = va.extractLsb' 0 5 := by
  apply BitVec.eq_of_getLsbD_eq
  intro k hk
  cases rc <;> interval_cases k <;> simp [encodeVC, regField, bitField, rcVCBit]

theorem extractLsb'_vb_encodeVC (vd va vb : VRNum) (rc : Bool) :
    (encodeVC vd va vb rc).extractLsb' 11 5 = vb.extractLsb' 0 5 := by
  apply BitVec.eq_of_getLsbD_eq
  intro k hk
  cases rc <;> interval_cases k <;> simp [encodeVC, regField, bitField, rcVCBit]

variable {vd va vb : VRNum} (rc : Bool)

theorem vcVD_encodeVC (h : vd.fitsVC = true) : vcVD (encodeVC vd va vb rc) = vd := by
  rw [vcVD, extractLsb'_vd_encodeVC, setWidth_low_of_fitsVC h]

theorem vcVA_encodeVC (h : va.fitsVC = true) : vcVA (encodeVC vd va vb rc) = va := by
  rw [vcVA, extractLsb'_va_encodeVC, setWidth_low_of_fitsVC h]

theorem vcVB_encodeVC (h : vb.fitsVC = true) : vcVB (encodeVC vd va vb rc) = vb := by
  rw [vcVB, extractLsb'_vb_encodeVC, setWidth_low_of_fitsVC h]

theorem decode_encode_vcmpbfp (hvd : vd.fitsVC = true) (hva : va.fitsVC = true) (hvb : vb.fitsVC = true) :
    decode (encode (.vcmpbfp vd va vb)) = .ok (.vcmpbfp vd va vb) := by
  rw [encode, decode_of_rowVC (encodeVC_and_maskVC vd va vb false), vcVD_encodeVC _ hvd, vcVA_encodeVC _ hva,
    vcVB_encodeVC _ hvb]

theorem decode_encode_vcmpbfpRc (hvd : vd.fitsVC = true) (hva : va.fitsVC = true) (hvb : vb.fitsVC = true) :
    decode (encode (.vcmpbfpRc vd va vb)) = .ok (.vcmpbfpRc vd va vb) := by
  rw [encode, decode_of_rowVCRc (encodeVC_and_maskVC vd va vb true), vcVD_encodeVC _ hvd, vcVA_encodeVC _ hva,
    vcVB_encodeVC _ hvb]

/-! ### No bit of a word lies outside its row's mask and its operands -/

/-- Equal 5-bit register numbers come from equal fields (R41). -/
theorem setWidth_seven_injective {x y : BitVec 5} (h : x.setWidth 7 = y.setWidth 7) : x = y := by
  simpa [BitVec.setWidth_setWidth_of_le] using congrArg (BitVec.setWidth 5) h

/-- Equal concatenations come from equal pieces (R42). -/
theorem append_injective {m n : Nat} {x x' : BitVec m} {y y' : BitVec n} (h : x ++ y = x' ++ y') : x = x' ∧ y = y' :=
  ⟨by simpa only [BitVec.extractLsb'_append_eq_left] using congrArg (BitVec.extractLsb' n m) h,
    by simpa only [BitVec.extractLsb'_append_eq_right] using congrArg (BitVec.extractLsb' 0 n) h⟩

theorem fields_eq_of_vxVD_eq {w v : Word} (h : vxVD w = vxVD v) :
    w.extractLsb 3 2 = v.extractLsb 3 2 ∧ w.extractLsb 25 21 = v.extractLsb 25 21 :=
  append_injective h

theorem fields_eq_of_vxVA_eq {w v : Word} (h : vxVA w = vxVA v) :
    w.extractLsb 10 10 = v.extractLsb 10 10 ∧ w.extractLsb 5 5 = v.extractLsb 5 5 ∧
      w.extractLsb 20 16 = v.extractLsb 20 16 := by
  obtain ⟨hhigh, hlow⟩ := append_injective h
  obtain ⟨htop, hmiddle⟩ := append_injective hhigh
  exact ⟨htop, hmiddle, hlow⟩

theorem fields_eq_of_vxVB_eq {w v : Word} (h : vxVB w = vxVB v) :
    w.extractLsb 1 0 = v.extractLsb 1 0 ∧ w.extractLsb 15 11 = v.extractLsb 15 11 :=
  append_injective h

/-- Words of form VC with the same fixed bits and the same operands are the same (R39, R41). -/
theorem eq_of_maskVC_of_operands {w v : Word} (hmask : w &&& maskVC = v &&& maskVC) (hvd : vcVD w = vcVD v)
    (hva : vcVA w = vcVA v) (hvb : vcVB w = vcVB v) : w = v := by
  rw [and_mask_eq_and_mask_iff] at hmask
  have hd := (extractLsb_eq_extractLsb_iff w v (hi := 25) (lo := 21) (by decide)).1 (setWidth_seven_injective hvd)
  have ha := (extractLsb_eq_extractLsb_iff w v (hi := 20) (lo := 16) (by decide)).1 (setWidth_seven_injective hva)
  have hb := (extractLsb_eq_extractLsb_iff w v (hi := 15) (lo := 11) (by decide)).1 (setWidth_seven_injective hvb)
  apply BitVec.eq_of_getLsbD_eq
  intro k hk
  by_cases hfixed : maskVC.getLsbD k = true
  · exact hmask k hfixed
  rw [getLsbD_maskVC_iff] at hfixed
  obtain h | h | h : (21 ≤ k ∧ k ≤ 25) ∨ (16 ≤ k ∧ k ≤ 20) ∨ (11 ≤ k ∧ k ≤ 15) := by omega
  · exact hd k h.1 h.2
  · exact ha k h.1 h.2
  · exact hb k h.1 h.2

/-- Words of form VX128_R with the same fixed bits and the same operands are the same (R40, R42). -/
theorem eq_of_maskVX_of_operands {w v : Word} (hmask : w &&& maskVX = v &&& maskVX) (hvd : vxVD w = vxVD v)
    (hva : vxVA w = vxVA v) (hvb : vxVB w = vxVB v) : w = v := by
  rw [and_mask_eq_and_mask_iff] at hmask
  obtain ⟨hdHigh, hdLow⟩ := fields_eq_of_vxVD_eq hvd
  obtain ⟨haTop, haMiddle, haLow⟩ := fields_eq_of_vxVA_eq hva
  obtain ⟨hbHigh, hbLow⟩ := fields_eq_of_vxVB_eq hvb
  have bits {hi lo : Nat} (hle : lo ≤ hi) (h : w.extractLsb hi lo = v.extractLsb hi lo) :=
    (extractLsb_eq_extractLsb_iff w v hle).1 h
  apply BitVec.eq_of_getLsbD_eq
  intro k hk
  by_cases hfixed : maskVX.getLsbD k = true
  · exact hmask k hfixed
  rw [getLsbD_maskVX_iff] at hfixed
  obtain h | h | h | h | h | h | h : (21 ≤ k ∧ k ≤ 25) ∨ (2 ≤ k ∧ k ≤ 3) ∨ (16 ≤ k ∧ k ≤ 20) ∨ (5 ≤ k ∧ k ≤ 5) ∨
      (10 ≤ k ∧ k ≤ 10) ∨ (11 ≤ k ∧ k ≤ 15) ∨ (0 ≤ k ∧ k ≤ 1) := by omega
  · exact bits (by decide) hdLow k h.1 h.2
  · exact bits (by decide) hdHigh k h.1 h.2
  · exact bits (by decide) haLow k h.1 h.2
  · exact bits (by decide) haMiddle k h.1 h.2
  · exact bits (by decide) haTop k h.1 h.2
  · exact bits (by decide) hbLow k h.1 h.2
  · exact bits (by decide) hbHigh k h.1 h.2

/-- A word of a row of form VC is the encoder's word for its own operands (R55). -/
theorem encodeVC_operands {w : Word} {rc : Bool} (h : w &&& maskVC = if rc then matchVCRc else matchVC) :
    encodeVC (vcVD w) (vcVA w) (vcVB w) rc = w :=
  eq_of_maskVC_of_operands ((encodeVC_and_maskVC ..).trans h.symm) (vcVD_encodeVC _ (VRNum.fitsVC_setWidth _))
    (vcVA_encodeVC _ (VRNum.fitsVC_setWidth _)) (vcVB_encodeVC _ (VRNum.fitsVC_setWidth _))

/-- A word of a row of form VX128_R is the encoder's word for its own operands (R55). -/
theorem encodeVX_operands {w : Word} {rc : Bool} (h : w &&& maskVX = if rc then matchVXRc else matchVX) :
    encodeVX (vxVD w) (vxVA w) (vxVB w) rc = w :=
  eq_of_maskVX_of_operands ((encodeVX_and_maskVX ..).trans h.symm) (vxVD_encodeVX ..) (vxVA_encodeVX ..)
    (vxVB_encodeVX ..)

theorem encode_decode {w : Word} {i : Instr} (h : decode w = .ok i) : encode i = w := by
  obtain ⟨hrow, rfl⟩ | ⟨hrow, rfl⟩ | ⟨hrow, rfl⟩ | ⟨hrow, rfl⟩ := decode_ok_cases h
  · exact encodeVC_operands (rc := false) hrow
  · exact encodeVC_operands (rc := true) hrow
  · exact encodeVX_operands (rc := false) hrow
  · exact encodeVX_operands (rc := true) hrow

/-! ### The assembler (R52, R54) -/

theorem assemble_eq_none_iff (i : Instr) : Machine.assemble i = none ↔ ¬ i.wf = true := by
  simp [Machine.assemble]

theorem assemble_eq_some_iff (i : Instr) (w : Word) : Machine.assemble i = some w ↔ i.wf = true ∧ encode i = w := by
  simp [Machine.assemble]

end Sys2Proof
end

section
/-! The statements of the encoding. -/

namespace Sys2Proof

open Sys2Proof.Machine

/-- Settles O4: a word of the encoder lies in its instruction's row, and the row's operand fields hold the register numbers;
in form VC, those that fit. -/
theorem decodeOfEncodeIsTheInstruction : Obligations.DecodeOfEncodeIsTheInstruction := by
  intro i hwf
  cases i with
  | vcmpbfp vd va vb =>
    simp only [Instr.wf, Bool.and_eq_true] at hwf
    obtain ⟨⟨hvd, hva⟩, hvb⟩ := hwf
    exact decode_encode_vcmpbfp hvd hva hvb
  | vcmpbfpRc vd va vb =>
    simp only [Instr.wf, Bool.and_eq_true] at hwf
    obtain ⟨⟨hvd, hva⟩, hvb⟩ := hwf
    exact decode_encode_vcmpbfpRc hvd hva hvb
  | vcmpbfp128 vd va vb => exact decode_encode_vcmpbfp128 vd va vb
  | vcmpbfp128Rc vd va vb => exact decode_encode_vcmpbfp128Rc vd va vb

/-- Settles O5: a word is its row's fixed bits and its operands, and the encoder's word has the same of both. -/
theorem encodeOfDecodeIsTheWord : Obligations.EncodeOfDecodeIsTheWord :=
  fun _ _ h => ⟨decode_wf h, encode_decode h⟩

/-- Settles O3: a mask tests exactly the bits of its fields, so the four rows are conditions on fields; a row's word decodes
to its instruction, and a word of no row to none. -/
theorem decodeFollowsTheFields : Obligations.DecodeFollowsTheFields := by
  intro w
  have hvcRc := rowVCRc_iff w
  have hvxRc := rowVXRc_iff w
  refine ⟨rowVC_iff w, matchVCRc_eq ▸ hvcRc, rowVX_iff w, matchVXRc_eq ▸ hvxRc,
    fun h => decode_of_rowVC ((rowVC_iff w).2 h), fun h => decode_of_rowVCRc (hvcRc.2 h),
    fun h => decode_of_rowVX ((rowVX_iff w).2 h), fun h => decode_of_rowVXRc (hvxRc.2 h), ?_⟩
  intro h1 h2 h3 h4
  exact ⟨_, decode_of_no_row (mt (rowVC_iff w).1 h1) (mt hvcRc.1 h2) (mt (rowVX_iff w).1 h3) (mt hvxRc.1 h4)⟩

/-- Settles O1: the decoder is run on each of the twelve words; that the instructions encode to them is the round trip. -/
theorem specWordsDecodeAndEncode : Obligations.SpecWordsDecodeAndEncode := by
  intro p hp
  have hdecode : decode p.1 = .ok p.2 := by
    revert p
    decide
  exact ⟨hdecode, encode_decode hdecode⟩

/-- Settles O2: each of the thirteen words has a primary and an extended opcode of no row, and its class follows. -/
theorem neighbourWordsAreRejected : Obligations.NeighbourWordsAreRejected := by
  refine ⟨fun w hw => ?_, fun w hw => ?_, fun w hw => ?_⟩
  · have hfields : w.extractLsb 31 26 = 4#6 ∧ w.extractLsb 9 0 ≠ 966#10 := by
      fin_cases hw <;> decide
    exact decode_of_other_xo_vc hfields.1 hfields.2
  · have hfields : w.extractLsb 31 26 = 6#6 ∧ w.extractLsb 9 6 ≠ 6#4 := by
      fin_cases hw <;> decide
    exact decode_of_other_xo_vx hfields.1 hfields.2
  · have hfields : w.extractLsb 31 26 ≠ 4#6 ∧ w.extractLsb 31 26 ≠ 6#6 := by
      fin_cases hw <;> decide
    exact decode_of_other_opcode hfields.1 hfields.2

/-- Settles O7: the assembler tests well-formedness, which in form VC is that the three register numbers are below 32. -/
theorem assemblerRejectsHighRegistersInFormVC : Obligations.AssemblerRejectsHighRegistersInFormVC := by
  refine ⟨fun vd va vb => ⟨?_, ?_, rfl, rfl⟩, fun i w h => ?_, by decide, by decide⟩
  · rw [assemble_eq_none_iff, wf_vcmpbfp_iff]
    omega
  · rw [assemble_eq_none_iff, wf_vcmpbfpRc_iff]
    omega
  · exact ((assemble_eq_some_iff i w).1 h).2.symm

end Sys2Proof
end

section
/-! A word in memory, byte by byte: what reads after `writeWord`, and what it leaves (R26, R27). -/

namespace Sys2Proof.Machine

/-! ### Writing a word -/

/-- Two different small offsets from one address are two addresses, also across the top of the address space. -/
theorem addr_add_ne_add {j k : BitVec 32} (a : Addr) (h : j ≠ k) : a + j ≠ a + k :=
  fun e => h ((BitVec.add_right_inj a).1 e)

theorem addr_add_ne_self {k : BitVec 32} (a : Addr) (h : k ≠ 0#32) : a ≠ a + k := by
  simpa using addr_add_ne_add a h.symm

variable (m : Memory) (a : Addr) (w : Word)

theorem read_writeWord_byte0 : Memory.read (Memory.writeWord m a w) a = some (byteOfWord w 0) := by
  rw [Memory.writeWord, read_write_other _ _ _ _ (addr_add_ne_self a (by decide)),
    read_write_other _ _ _ _ (addr_add_ne_self a (by decide)),
    read_write_other _ _ _ _ (addr_add_ne_self a (by decide)), read_write_same]

theorem read_writeWord_byte1 : Memory.read (Memory.writeWord m a w) (a + 1#32) = some (byteOfWord w 1) := by
  rw [Memory.writeWord, read_write_other _ _ _ _ (addr_add_ne_add a (by decide)),
    read_write_other _ _ _ _ (addr_add_ne_add a (by decide)), read_write_same]

theorem read_writeWord_byte2 : Memory.read (Memory.writeWord m a w) (a + 2#32) = some (byteOfWord w 2) := by
  rw [Memory.writeWord, read_write_other _ _ _ _ (addr_add_ne_add a (by decide)), read_write_same]

theorem read_writeWord_byte3 : Memory.read (Memory.writeWord m a w) (a + 3#32) = some (byteOfWord w 3) := by
  rw [Memory.writeWord, read_write_same]

theorem read_writeWord_other {c : Addr} (h0 : c ≠ a) (h1 : c ≠ a + 1#32) (h2 : c ≠ a + 2#32) (h3 : c ≠ a + 3#32) :
    Memory.read (Memory.writeWord m a w) c = Memory.read m c := by
  rw [Memory.writeWord, read_write_other _ _ _ _ h3, read_write_other _ _ _ _ h2, read_write_other _ _ _ _ h1,
    read_write_other _ _ _ _ h0]

@[simp] theorem readWord_writeWord_same : Memory.readWord (Memory.writeWord m a w) a = some w :=
  (readWord_eq_some_iff _ a w).2 ⟨_, _, _, _, read_writeWord_byte0 m a w, read_writeWord_byte1 m a w,
    read_writeWord_byte2 m a w, read_writeWord_byte3 m a w, wordOfBytes_byteOfWord w⟩

/-! ### Reading a word -/

variable {m a}

/-- A fetch that needs an unmapped byte reads nothing (R72). -/
theorem readWord_eq_none_of_unmapped (h : Memory.read m a = none ∨ Memory.read m (a + 1#32) = none ∨
    Memory.read m (a + 2#32) = none ∨ Memory.read m (a + 3#32) = none) : Memory.readWord m a = none := by
  rw [Option.eq_none_iff_forall_ne_some]
  intro w hw
  obtain ⟨b0, b1, b2, b3, h0, h1, h2, h3, -⟩ := (readWord_eq_some_iff m a w).1 hw
  simp [h0, h1, h2, h3] at h

/-- Four mapped bytes are read as the word they make (R27). -/
theorem readWord_eq_some_of_bytes {b0 b1 b2 b3 : Byte} (h0 : Memory.read m a = some b0)
    (h1 : Memory.read m (a + 1#32) = some b1) (h2 : Memory.read m (a + 2#32) = some b2)
    (h3 : Memory.read m (a + 3#32) = some b3) : Memory.readWord m a = some (wordOfBytes b0 b1 b2 b3) :=
  (readWord_eq_some_iff m a _).2 ⟨b0, b1, b2, b3, h0, h1, h2, h3, rfl⟩

end Sys2Proof.Machine
end

section
/-! Bytes in memory order, decoded (R26, R38). -/

namespace Sys2Proof

theorem decode_of_decodeBytes_four {b0 b1 b2 b3 : Byte} {i : Instr} (h : decodeBytes [b0, b1, b2, b3] = .ok (i, [])) :
    decode (wordOfBytes b0 b1 b2 b3) = .ok i := by
  rw [decodeBytes_four] at h
  cases hd : decode (wordOfBytes b0 b1 b2 b3) with
  | error e => rw [hd] at h; cases h
  | ok j => rw [hd] at h; cases h; rfl

theorem decodeTableWord_of_decode {nbits w : Nat} {i : Instr} (h : decode (tableWord nbits w) = .ok i) :
    decodeTableWord nbits w = some i := by
  rw [decodeTableWord, bytesOfWord, decodeBytes_four, wordOfBytes_byteOfWord, h]
  rfl

end Sys2Proof
end

section
/-! Every way a step can stop, in the order of R74, and the state it leaves (R24, R71, R72, R88). -/

namespace Sys2Proof.Machine

variable {s : State}

/-! ### The five stops -/

theorem step_of_marked (hmark : s.refused = true) : step s = .refused .markedRefused := by
  simp [step, nextInstr, hmark]

theorem step_of_end (hmark : s.refused = false) (hend : s.endPc = some s.pc) : step s = .fault .endOfRun := by
  simp [step, nextInstr, hmark, hend]

theorem step_of_misaligned (hmark : s.refused = false) (hend : s.endPc ≠ some s.pc) (hpc : s.pc.toNat % 4 ≠ 0) :
    step s = .refused (.misalignedPc s.pc) := by
  simp [step, nextInstr, hmark, hend, pcAligned, hpc]

theorem step_of_unmapped (hr : s.ready = true) (hmem : Memory.readWord s.mem s.pc = none) :
    step s = .fault (.unmappedFetch s.pc) := by
  obtain ⟨hmark, hend, hpc⟩ := (ready_iff s).1 hr
  simp [step, nextInstr, hmark, hend, hpc, hmem]

theorem step_of_undecodable (hr : s.ready = true) {w : Word} {e : DecodeReject}
    (hmem : Memory.readWord s.mem s.pc = some w) (hd : decode w = .error e) :
    step s = .refused (.undecodable s.pc w) := by
  obtain ⟨hmark, hend, hpc⟩ := (ready_iff s).1 hr
  simp [step, nextInstr, hmark, hend, hpc, hmem, hd]

theorem ready_of_aligned (hmark : s.refused = false) (hend : s.endPc ≠ some s.pc) (hpc : s.pc.toNat % 4 = 0) :
    s.ready = true :=
  (ready_iff s).2 ⟨hmark, hend, (pcAligned_iff s.pc).2 hpc⟩

/-! ### The state after a step that gives none -/

theorem afterStep_of_fault {f : Fault} (h : step s = .fault f) : afterStep s = s := by
  simp [afterStep, h]

theorem afterStep_of_refused {r : Refusal} (h : step s = .refused r) : afterStep s = s.markRefused := by
  simp [afterStep, h]

/-- A marked state stays as it is however often a step is asked (R24). -/
theorem iterate_afterStep_of_marked (hmark : s.refused = true) (n : Nat) : afterStep^[n] s = s := by
  refine Function.iterate_fixed ?_ n
  rw [afterStep_of_refused (step_of_marked hmark), markRefused_of_refused s hmark]

theorem isFinal_of_ready (hr : s.ready = true) : s.isFinal = false := by
  obtain ⟨-, hend, -⟩ := (ready_iff s).1 hr
  simp [State.isFinal, hend]

theorem isFinal_of_marked (hmark : s.refused = true) : s.isFinal = false := by
  simp [State.isFinal, hmark]

theorem placeWord_ready (s : State) (w : Word) : (placeWord s w).ready = true :=
  (ready_iff _).2 ⟨placeWord_refused s w, placeWord_endPc_ne s w, alignedPc_aligned s.pc⟩

end Sys2Proof.Machine
end

section
/-! Along a run: what every step leaves unchanged, and where the pc stands (R17, R20, R36). -/

namespace Sys2Proof.Machine

theorem inv_iff (s : State) :
    s.inv = true ↔ Memory.wf s.mem = true ∧ pcAligned s.pc = true ∧ s.refused = false := by
  simp [State.inv, and_assoc]

/-- A step to a next state advances the pc and leaves the text, the end of the run and the mark. -/
theorem step_next_frame {s t : State} (h : step s = .next t) :
    t.pc = s.pc + 4#32 ∧ t.mem = s.mem ∧ t.endPc = s.endPc ∧ t.refused = s.refused := by
  obtain ⟨i, -, rfl⟩ := (step_next_iff s t).1 h
  exact ⟨execBounds_pc .., execBounds_mem .., execBounds_endPc .., execBounds_refused ..⟩

/-- The `k`-th word after the next one is the `k + 1`-st. -/
theorem addr_add_four_add (a : Addr) (k : Nat) :
    a + 4#32 + BitVec.ofNat 32 (4 * k) = a + BitVec.ofNat 32 (4 * (k + 1)) := by
  rw [Nat.mul_succ, Nat.add_comm, BitVec.ofNat_add, BitVec.add_assoc]

theorem run_zero_next_iff {s t : State} : Host.Core.run core 0 s = .next t ↔ s = t :=
  ⟨Host.Outcome.next.inj, congrArg _⟩

/-- A run of `n` steps leaves what each step leaves, and its pc is `4n` above the first. -/
theorem run_next_frame {n : Nat} {s t : State} (h : Host.Core.run core n s = .next t) :
    t.pc = s.pc + BitVec.ofNat 32 (4 * n) ∧ t.mem = s.mem ∧ t.endPc = s.endPc ∧ t.refused = s.refused := by
  induction n generalizing s with
  | zero =>
    obtain rfl := run_zero_next_iff.1 h
    exact ⟨by simp, rfl, rfl, rfl⟩
  | succ n ih =>
    obtain ⟨u, hstep, hrun⟩ := run_succ_next_iff.1 h
    obtain ⟨hpc, hmem, hend, hmark⟩ := step_next_frame hstep
    obtain ⟨hpc', hmem', hend', hmark'⟩ := ih hrun
    exact ⟨by rw [hpc', hpc, addr_add_four_add], hmem'.trans hmem, hend'.trans hend, hmark'.trans hmark⟩

/-- A step changes a register only where the word at the pc is an instruction with that destination (R20). -/
theorem step_next_readVR {s t : State} {r : VRNum} (h : step s = .next t)
    (hdest : ∀ w i, Memory.readWord s.mem s.pc = some w → decode w = .ok i → i.vd ≠ r) : t.readVR r = s.readVR r := by
  obtain ⟨i, hi, rfl⟩ := (step_next_iff s t).1 h
  obtain ⟨-, -, -, w, hw, hd⟩ := (nextInstr_ok_iff s i).1 hi
  exact execBounds_readVR_other _ _ _ _ _ _ (hdest w i hw hd).symm

theorem run_next_readVR {n : Nat} {s t : State} {r : VRNum} (h : Host.Core.run core n s = .next t)
    (hdest : ∀ k w i, k < n → Memory.readWord s.mem (s.pc + BitVec.ofNat 32 (4 * k)) = some w → decode w = .ok i →
      i.vd ≠ r) : t.readVR r = s.readVR r := by
  induction n generalizing s with
  | zero => rw [run_zero_next_iff.1 h]
  | succ n ih =>
    obtain ⟨u, hstep, hrun⟩ := run_succ_next_iff.1 h
    obtain ⟨hpc, hmem, -, -⟩ := step_next_frame hstep
    have hfirst : u.readVR r = s.readVR r :=
      step_next_readVR hstep fun w i hw hd => hdest 0 w i n.succ_pos (by simpa using hw) hd
    have hrest : t.readVR r = u.readVR r := ih hrun fun k w i hk hw hd => by
      rw [hpc, hmem, addr_add_four_add] at hw
      exact hdest (k + 1) w i (Nat.succ_lt_succ hk) hw hd
    exact hrest.trans hfirst

end Sys2Proof.Machine
end

section
/-! Runs of a launched program (R87, R88). -/

namespace Sys2Proof.Machine

variable {s t : State} {prog : List Word}

/-- The pc stays aligned along the words of a program. -/
theorem aligned_add_four_mul {a : Addr} (k : Nat) (h : a.toNat % 4 = 0) :
    (a + BitVec.ofNat 32 (4 * k)).toNat % 4 = 0 := by
  rw [BitVec.toNat_add, BitVec.toNat_ofNat]
  omega

/-- Below `2^30` words no two word addresses of a program are the same. -/
theorem addr_add_four_mul_injective {a : Addr} {j k : Nat} (hj : j < 2 ^ 30) (hk : k < 2 ^ 30)
    (h : a + BitVec.ofNat 32 (4 * j) = a + BitVec.ofNat 32 (4 * k)) : j = k := by
  have hnat := congrArg BitVec.toNat ((BitVec.add_right_inj a).1 h)
  rw [BitVec.toNat_ofNat, BitVec.toNat_ofNat] at hnat
  omega

/-- After `k` steps, fewer than the program has words, the state is ready for word `k`. -/
theorem ready_of_launch_run {k : Nat} (hl : Launch s prog) (hlen : prog.length < 2 ^ 30) (hk : k < prog.length)
    (hrun : Host.Core.run core k s = .next t) : t.ready = true ∧ Memory.readWord t.mem t.pc = some prog[k] := by
  obtain ⟨hpc, hmem, hend, hmark⟩ := run_next_frame hrun
  constructor
  · refine ready_of_aligned (hmark.trans hl.notRefused) (fun e => ?_) (hpc ▸ aligned_add_four_mul k hl.alignedEntry)
    rw [hend, hl.endPc, hpc] at e
    exact absurd (addr_add_four_mul_injective hlen (hk.trans hlen) (Option.some.inj e)) hk.ne'
  · rw [hmem, hpc, hl.textMapped k hk]

/-- There a next step is taken, since the word decodes. -/
theorem step_of_launch_run {k : Nat} (hl : Launch s prog) (hlen : prog.length < 2 ^ 30)
    (hdec : ∀ w ∈ prog, ∃ i, decode w = .ok i) (hk : k < prog.length) (hrun : Host.Core.run core k s = .next t) :
    ∃ u, step t = .next u := by
  obtain ⟨hready, hword⟩ := ready_of_launch_run hl hlen hk hrun
  obtain ⟨i, hi⟩ := hdec prog[k] (List.getElem_mem hk)
  exact ⟨_, (step_of_ready hready hword hi).trans (exec_eq i t)⟩

theorem run_of_launch {k : Nat} (hl : Launch s prog) (hlen : prog.length < 2 ^ 30)
    (hdec : ∀ w ∈ prog, ∃ i, decode w = .ok i) (hk : k ≤ prog.length) : ∃ t, Host.Core.run core k s = .next t := by
  induction k with
  | zero => exact ⟨s, rfl⟩
  | succ k ih =>
    obtain ⟨t, hrun⟩ := ih (Nat.le_of_succ_le hk)
    obtain ⟨u, hstep⟩ := step_of_launch_run hl hlen hdec hk hrun
    exact ⟨u, (run_succ_last hrun).trans hstep⟩

/-- After as many steps as the program has words the pc is `END_PC` and the mark is clear. -/
theorem end_of_launch_run (hl : Launch s prog) (hrun : Host.Core.run core prog.length s = .next t) :
    t.endPc = some t.pc ∧ t.refused = false := by
  obtain ⟨hpc, -, hend, hmark⟩ := run_next_frame hrun
  exact ⟨by rw [hend, hl.endPc, hpc], hmark.trans hl.notRefused⟩

end Sys2Proof.Machine
end

section
/-! The statements of the invariant and of runs. -/

namespace Sys2Proof

open Sys2Proof.Machine

/-- Settles O38: a step leaves the text and the mark, and adds 4 to the pc. -/
theorem everyStepKeepsTheInvariant : Obligations.EveryStepKeepsTheInvariant := by
  intro s t hinv hstep
  obtain ⟨hwf, haligned, hclear⟩ := (inv_iff s).1 hinv
  obtain ⟨hpc, hmem, -, hmark⟩ := step_next_frame hstep
  exact (inv_iff t).2 ⟨hmem ▸ hwf, hpc ▸ pcAligned_add_four s.pc haligned, hmark.trans hclear⟩

/-- Settles O39: reset's fields are computed. -/
theorem resetMeetsTheInvariant : Obligations.ResetMeetsTheInvariant :=
  ⟨(inv_iff _).2 ⟨wf_empty, rfl, rfl⟩, rfl, rfl, rfl, fun n => by simp [State.reset, State.readVR], rfl⟩

/-- Settles O40, by induction on the number of steps. -/
theorem runsFallThroughAnUnchangingText : Obligations.RunsFallThroughAnUnchangingText := by
  intro n s t hrun
  obtain ⟨hpc, hmem, hend, hmark⟩ := run_next_frame hrun
  exact ⟨hpc, fun a => by rw [hmem], hmem, hend, hmark⟩

/-- Settles O41, by induction on the number of steps. -/
theorem runsChangeOnlyDestinations : Obligations.RunsChangeOnlyDestinations :=
  fun _ _ _ _ hdest hrun => run_next_readVR hrun hdest

/-- Settles O42: after `k` steps the pc is at word `k`, which is no end before the last word, and decodes. -/
theorem launchedProgramsReachTheirEnd : Obligations.LaunchedProgramsReachTheirEnd := by
  intro s prog hl hlen hdec
  constructor
  · intro k hk
    obtain ⟨t, hrun⟩ := run_of_launch hl hlen hdec hk.le
    obtain ⟨hready, -⟩ := ready_of_launch_run hl hlen hk hrun
    exact ⟨t, hrun, isFinal_of_ready hready, (run_next_frame hrun).1, step_of_launch_run hl hlen hdec hk hrun⟩
  · obtain ⟨t, hrun⟩ := run_of_launch hl hlen hdec le_rfl
    obtain ⟨hend, hmark⟩ := end_of_launch_run hl hrun
    have hstop : step t = .fault .endOfRun := step_of_end hmark hend
    exact ⟨t, hrun, by simp [State.isFinal, hend, hmark], hstop, (run_succ_last hrun).trans hstop⟩

end Sys2Proof
end

section
/-! The statements of fetch, stops and memory, and of the condition register. -/

namespace Sys2Proof

open Sys2Proof.Machine

/-- Settles O30: the four bytes are the word the fetch reads, and a ready state runs what it decodes to. -/
theorem stepRunsTheDecodedInstruction : Obligations.StepRunsTheDecodedInstruction := by
  intro s b0 b1 b2 b3 i hmark hend hpc h0 h1 h2 h3 hbytes
  have hd : decode (wordOfBytes b0 b1 b2 b3) = .ok i := decode_of_decodeBytes_four hbytes
  exact ⟨decode_wf hd, step_of_ready (ready_of_aligned hmark hend hpc) (readWord_eq_some_of_bytes h0 h1 h2 h3) hd⟩

/-- Settles O31: one lemma per stop. -/
theorem stopsAreTestedInOrder : Obligations.StopsAreTestedInOrder := by
  intro s hmark
  refine ⟨step_of_end hmark, step_of_misaligned hmark,
    fun hend hpc => step_of_unmapped (ready_of_aligned hmark hend hpc), fun hend hpc w hw => ⟨fun e => ?_, fun i => ?_⟩⟩
  · exact step_of_undecodable (ready_of_aligned hmark hend hpc) hw
  · exact step_of_ready (ready_of_aligned hmark hend hpc) hw

/-- Settles O32: a word of each class is rejected by the decoder, so the step is refused, which sets the mark alone. -/
theorem otherWordsAreRefusedAndMarked : Obligations.OtherWordsAreRefusedAndMarked := by
  intro s w hr hw hclass
  obtain ⟨e, he⟩ : ∃ e, decode w = .error e := by
    obtain ⟨hvc, hvx⟩ | ⟨hop, hxo⟩ | ⟨hop, hxo⟩ := hclass
    · exact ⟨_, decode_of_other_opcode hvc hvx⟩
    · exact ⟨_, decode_of_other_xo_vc hop hxo⟩
    · exact ⟨_, decode_of_other_xo_vx hop hxo⟩
  have hstep : step s = .refused (.undecodable s.pc w) := step_of_undecodable hr hw he
  rw [afterStep_of_refused hstep]
  exact ⟨hstep, rfl, fun _ => rfl, rfl, rfl, fun _ => rfl, isFinal_of_marked rfl⟩

/-- Settles O33: the fetch reads no word, and a fault leaves the state. -/
theorem unmappedFetchIsStuck : Obligations.UnmappedFetchIsStuck := by
  intro s hr hunmapped
  have hstep : step s = .fault (.unmappedFetch s.pc) := step_of_unmapped hr (readWord_eq_none_of_unmapped hunmapped)
  exact ⟨hstep, by simp [State.isStuck, hstep], isFinal_of_ready hr, afterStep_of_fault hstep⟩

/-- Settles O34: adding 4 keeps the pc a multiple of 4, a launch starts at one, and the alignment is tested before the
fetch. -/
theorem pcStaysAlignedAndMisalignedPcIsRefused : Obligations.PcStaysAlignedAndMisalignedPcIsRefused := by
  refine ⟨fun i s hpc => ⟨_, exec_eq i s, ?_⟩, fun s prog hpc hl => hpc hl.alignedEntry, fun s => step_of_misaligned⟩
  rw [execBounds_pc, ← pcAligned_iff]
  exact pcAligned_add_four s.pc ((pcAligned_iff s.pc).2 hpc)

/-- Settles O35: asking a marked state for a step gives the state back, and a refused step leaves a marked state. -/
theorem refusedMarkIsNeverCleared : Obligations.RefusedMarkIsNeverCleared := by
  refine ⟨fun s hmark => ⟨step_of_marked hmark, iterate_afterStep_of_marked hmark⟩, fun s r hstep n => ?_⟩
  rw [Function.iterate_succ_apply, afterStep_of_refused hstep, iterate_afterStep_of_marked (markRefused_refused s),
    markRefused_refused]

/-- Settles O36: the four bytes are written at four different addresses. -/
theorem wordsLieInMemoryBigEndian : Obligations.WordsLieInMemoryBigEndian :=
  fun m a w => ⟨read_writeWord_byte0 m a w, read_writeWord_byte1 m a w, read_writeWord_byte2 m a w,
    read_writeWord_byte3 m a w, readWord_writeWord_same m a w, fun _ => read_writeWord_other m a w, wf_writeWord m a w⟩

/-- Settles O37: the loader leaves a ready state that fetches the placed word. -/
theorem placedWordIsTheNextInstruction : Obligations.PlacedWordIsTheNextInstruction := by
  intro s w i hw hd
  have hword : tableWord 32 w = BitVec.ofNat 32 w := by rw [tableWord, Nat.mod_eq_of_lt hw]
  rw [← hword] at hd
  refine ⟨decodeTableWord_of_decode hd, ?_, fun _ => rfl, rfl, fun hpc => ?_, fun _ => read_writeWord_other _ _ _⟩
  · exact step_of_ready (placeWord_ready s _) (readWord_writeWord_same ..) hd
  · exact alignedPc_of_aligned s.pc ((pcAligned_iff s.pc).2 hpc)

/-- Settles O17: `crBit` has one clause per bit of CR6 and none for another. -/
theorem placeOfCR6InTheConditionRegister : Obligations.PlaceOfCR6InTheConditionRegister := by
  refine fun s => ⟨rfl, rfl, rfl, rfl, fun n hn => ?_⟩
  have hout : n ≠ 24 ∧ n ≠ 25 ∧ n ≠ 26 ∧ n ≠ 27 := by omega
  simp [State.crBit, Config.crField, hout]

end Sys2Proof
end

section
/-! The magnitude of a binary32 pattern, its low 31 bits, and the value it counts (R9). -/

namespace Sys2Proof.Machine

/-! ### The magnitude -/

/-- The low 31 bits as a number, which `key32` signs. -/
def magnitude32 (x : Word) : Nat := (x.extractLsb' 0 31).toNat

/-- The magnitude, and the key, of positive infinity. -/
abbrev infMagnitude : Nat := 0x7F800000

theorem magnitude32_eq (x : Word) : magnitude32 x = (exponent32 x).toNat * 2 ^ 23 + (fraction32 x).toNat := by
  simp only [magnitude32, exponent32, fraction32, BitVec.extractLsb'_toNat,
    Nat.shiftRight_eq_div_pow]
  omega

theorem key32_eq (x : Word) : key32 x = if sign32 x then -(magnitude32 x : Int) else magnitude32 x := by
  by_cases h : magnitude32 x = 0
  · have h' : (x.extractLsb' 0 31).toNat = 0 := h
    simp [key32, h, h']
  · exact if_neg h

theorem natAbs_key32 (x : Word) : (key32 x).natAbs = magnitude32 x := by
  rw [key32_eq]
  cases sign32 x <;> simp

theorem exponent32_eq_ones_iff (x : Word) : exponent32 x = 0xFF#8 ↔ infMagnitude ≤ magnitude32 x := by
  have he := (exponent32 x).isLt
  have hf := (fraction32 x).isLt
  have hones : exponent32 x = 0xFF#8 ↔ (exponent32 x).toNat = 255 := BitVec.toNat_inj.symm
  rw [hones, magnitude32_eq, infMagnitude]
  omega

/-- The NaNs are the patterns above the infinities. -/
theorem isNaN32_iff (x : Word) : isNaN32 x = true ↔ infMagnitude < magnitude32 x := by
  have hf := (fraction32 x).isLt
  have hones : exponent32 x = 0xFF#8 ↔ (exponent32 x).toNat = 255 := BitVec.toNat_inj.symm
  have hzero : fraction32 x = 0#23 ↔ (fraction32 x).toNat = 0 := BitVec.toNat_inj.symm
  have he := (exponent32 x).isLt
  simp only [isNaN32, Bool.and_eq_true, beq_iff_eq, bne_iff_ne, ne_eq, hones, hzero]
  rw [magnitude32_eq, infMagnitude]
  omega

/-- The keys of the patterns that are no NaN lie between those of the infinities. -/
theorem natAbs_key32_le {x : Word} (h : isNaN32 x = false) : (key32 x).natAbs ≤ infMagnitude := by
  rw [natAbs_key32]
  by_contra hlt
  rw [(isNaN32_iff x).2 (not_le.1 hlt)] at h
  exact Bool.noConfusion h

/-- The keys of finite patterns lie strictly between those of the infinities. -/
theorem natAbs_key32_lt {x : Word} (h : exponent32 x ≠ 0xFF#8) : (key32 x).natAbs < infMagnitude := by
  rw [natAbs_key32]
  exact not_le.1 (mt (exponent32_eq_ones_iff x).2 h)

/-! ### The value counted by a magnitude -/

/-- The units of `2^-149` that a finite magnitude counts. -/
def unitsOfMagnitude (m : Nat) : Nat :=
  if m / 2 ^ 23 = 0 then m % 2 ^ 23 else (2 ^ 23 + m % 2 ^ 23) * 2 ^ (m / 2 ^ 23 - 1)

theorem unitsOfMagnitude_mul_add (e : Nat) {f : Nat} (hf : f < 2 ^ 23) :
    unitsOfMagnitude (e * 2 ^ 23 + f) = if e = 0 then f else (2 ^ 23 + f) * 2 ^ (e - 1) := by
  have hdiv : (e * 2 ^ 23 + f) / 2 ^ 23 = e := by omega
  have hmod : (e * 2 ^ 23 + f) % 2 ^ 23 = f := by omega
  rw [unitsOfMagnitude, hdiv, hmod]

theorem magnitudeUnits_eq (x : Word) : magnitudeUnits x = unitsOfMagnitude (magnitude32 x) := by
  rw [magnitude32_eq, unitsOfMagnitude_mul_add _ (fraction32 x).isLt, magnitudeUnits]

/-- The next magnitude counts more: a larger fraction under the same exponent, or the next power of two. -/
theorem unitsOfMagnitude_lt_succ (m : Nat) : unitsOfMagnitude m < unitsOfMagnitude (m + 1) := by
  obtain ⟨e, f, hf, rfl⟩ : ∃ e f, f < 2 ^ 23 ∧ m = e * 2 ^ 23 + f :=
    ⟨m / 2 ^ 23, m % 2 ^ 23, Nat.mod_lt _ (by decide), by omega⟩
  rw [unitsOfMagnitude_mul_add e hf]
  rcases Nat.lt_or_eq_of_le (Nat.succ_le_of_lt hf) with hnext | hcarry
  · rw [Nat.add_assoc, unitsOfMagnitude_mul_add e hnext]
    split_ifs
    · exact Nat.lt_succ_self f
    · exact Nat.mul_lt_mul_of_pos_right (by omega) (Nat.two_pow_pos _)
  · have hsum : e * 2 ^ 23 + f + 1 = (e + 1) * 2 ^ 23 + 0 := by omega
    rw [hsum, unitsOfMagnitude_mul_add (e + 1) (by decide), if_neg e.succ_ne_zero, Nat.add_sub_cancel]
    cases e with
    | zero => simpa using hf
    | succ e =>
      have hpos := Nat.two_pow_pos e
      rw [if_neg e.succ_ne_zero, Nat.add_sub_cancel, pow_succ 2 e]
      nlinarith

theorem unitsOfMagnitude_strictMono : StrictMono unitsOfMagnitude :=
  strictMono_nat_of_lt_succ unitsOfMagnitude_lt_succ

end Sys2Proof.Machine
end

section
/-! The value of a pattern is a strictly monotone function of its key (R9). -/

namespace Sys2Proof.Machine

/-! ### The value of a key -/

/-- The signed units of `2^-149` that a finite key counts. -/
def unitsOfKey (k : Int) : Int := k.sign * unitsOfMagnitude k.natAbs

theorem unitsOfKey_natCast (n : Nat) : unitsOfKey n = unitsOfMagnitude n := by
  rcases n.eq_zero_or_pos with rfl | hpos
  · rfl
  · rw [unitsOfKey, Int.sign_natCast_of_ne_zero hpos.ne', one_mul, Int.natAbs_natCast]

theorem unitsOfKey_neg (k : Int) : unitsOfKey (-k) = -unitsOfKey k := by
  rw [unitsOfKey, unitsOfKey, Int.sign_neg, Int.natAbs_neg, neg_mul]

theorem unitsOfKey_strictMono : StrictMono unitsOfKey := by
  refine strictMono_of_odd_strictMonoOn_nonneg unitsOfKey_neg fun j hj k hk hlt => ?_
  lift j to Nat using hj
  lift k to Nat using hk
  rw [unitsOfKey_natCast, unitsOfKey_natCast, Nat.cast_lt]
  exact unitsOfMagnitude_strictMono (Nat.cast_lt.1 hlt)

/-- The value of the patterns with key `k`. -/
def valueOfKey (k : Int) : FloatValue :=
  if k = -(infMagnitude : Int) then .negInf else if k = infMagnitude then .posInf else .finite (unitsOfKey k)

theorem floatValue_eq_valueOfKey {x : Word} (h : isNaN32 x = false) : floatValue x = valueOfKey (key32 x) := by
  have hle := natAbs_key32_le h
  rw [natAbs_key32] at hle
  have hinf := exponent32_eq_ones_iff x
  rw [floatValue, valueOfKey, magnitudeUnits_eq, ← unitsOfKey_natCast, key32_eq]
  by_cases hm : magnitude32 x = infMagnitude
  · rw [if_pos (hinf.2 hm.ge), hm]
    cases sign32 x <;> rfl
  · have hlt : magnitude32 x < infMagnitude := lt_of_le_of_ne hle hm
    rw [if_neg (mt hinf.1 (not_le.2 hlt))]
    cases sign32 x with
    | true =>
      rw [if_pos rfl, if_pos rfl, unitsOfKey_neg, if_neg (by omega), if_neg (by omega)]
    | false =>
      rw [if_neg Bool.false_ne_true, if_neg Bool.false_ne_true, if_neg (by omega), if_neg (by omega)]

theorem valueOfKey_lt_iff {j k : Int} (hj : j.natAbs ≤ infMagnitude) (hk : k.natAbs ≤ infMagnitude) :
    FloatValue.lt (valueOfKey j) (valueOfKey k) = true ↔ j < k := by
  unfold valueOfKey
  split_ifs <;> simp [FloatValue.lt, unitsOfKey_strictMono.lt_iff_lt] <;> omega

/-- The order of the values is the order of the keys. -/
theorem floatValue_lt_iff {a b : Word} (ha : isNaN32 a = false) (hb : isNaN32 b = false) :
    FloatValue.lt (floatValue a) (floatValue b) = true ↔ key32 a < key32 b := by
  rw [floatValue_eq_valueOfKey ha, floatValue_eq_valueOfKey hb,
    valueOfKey_lt_iff (natAbs_key32_le ha) (natAbs_key32_le hb)]

/-- The sign flip negates the value, and the answer given for a NaN. -/
theorem floatValue_fneg32 (x : Word) : floatValue (fneg32 x) = FloatValue.neg (floatValue x) := by
  have hunits : magnitudeUnits (fneg32 x) = magnitudeUnits x := by simp [magnitudeUnits]
  rw [floatValue, floatValue, exponent32_fneg32, sign32_fneg32, hunits]
  by_cases hinf : exponent32 x = 0xFF#8 <;> cases sign32 x <;> simp [hinf, FloatValue.neg]

/-! ### The two comparisons -/

theorem fgt32_iff (a b : Word) :
    fgt32 a b = true ↔ isNaN32 a = false ∧ isNaN32 b = false ∧ key32 b < key32 a := by
  simp [fgt32, and_assoc]

theorem flt32_iff (a b : Word) :
    flt32 a b = true ↔ isNaN32 a = false ∧ isNaN32 b = false ∧ key32 a < key32 b := by
  simp [flt32, and_assoc]

/-- `-a > b` where `a < -b`. -/
theorem fgt32_fneg32_left (a b : Word) : fgt32 (fneg32 a) b = flt32 a (fneg32 b) := by
  rw [Bool.eq_iff_iff, fgt32_iff, flt32_iff, isNaN32_fneg32, isNaN32_fneg32, key32_fneg32, key32_fneg32, lt_neg]

/-- `-a < -b` where `a > b`. -/
theorem flt32_fneg32_fneg32 (a b : Word) : flt32 (fneg32 a) (fneg32 b) = fgt32 a b := by
  rw [Bool.eq_iff_iff, fgt32_iff, flt32_iff, isNaN32_fneg32, isNaN32_fneg32, key32_fneg32, key32_fneg32, neg_lt_neg_iff]

end Sys2Proof.Machine
end

section
/-! The lane function on operands that are no NaN, told by their keys (R56, R66). -/

namespace Sys2Proof.Machine

theorem flagPair_eq_zero_iff (high low : Bool) : flagPair high low = 0#32 ↔ high = false ∧ low = false := by
  cases high <;> cases low <;> decide

theorem flagPair_eq_both_iff (high low : Bool) : flagPair high low = 0xC0000000#32 ↔ high = true ∧ low = true := by
  cases high <;> cases low <;> decide

variable {a b : Word}

theorem boundsLane_of_not_isNaN (ha : isNaN32 a = false) (hb : isNaN32 b = false) :
    boundsLane a b = flagPair (decide (key32 b < key32 a)) (decide (key32 a < -key32 b)) := by
  simp [boundsLane_eq_flagPair, fgt32, flt32, ha, hb]

/-- Operands with the same NaN-ness and the same keys are alike. -/
theorem boundsLane_congr {a' b' : Word} (ha : isNaN32 a = isNaN32 a') (hka : key32 a = key32 a')
    (hb : isNaN32 b = isNaN32 b') (hkb : key32 b = key32 b') : boundsLane a b = boundsLane a' b' := by
  rw [boundsLane_eq, boundsLane_eq, ha, hka, hb, hkb]

theorem boundsLane_eq_zero_iff (a b : Word) :
    boundsLane a b = 0#32 ↔
      isNaN32 a = false ∧ isNaN32 b = false ∧ ¬ key32 a < -key32 b ∧ ¬ key32 b < key32 a := by
  by_cases hnan : isNaN32 a = true ∨ isNaN32 b = true
  · rw [boundsLane_of_isNaN hnan]
    refine iff_of_false (by decide) fun h => ?_
    rcases hnan with hnan | hnan
    · exact Bool.false_ne_true (h.1.symm.trans hnan)
    · exact Bool.false_ne_true (h.2.1.symm.trans hnan)
  · obtain ⟨ha, hb⟩ : isNaN32 a = false ∧ isNaN32 b = false := by simpa using hnan
    rw [boundsLane_of_not_isNaN ha hb, flagPair_eq_zero_iff]
    simp [ha, hb, and_comm]

section Corners

variable (ha : isNaN32 a = false) (hb : isNaN32 b = false)

include ha hb

theorem boundsLane_inBounds (hhigh : key32 a ≤ key32 b) (hlow : -key32 b ≤ key32 a) : boundsLane a b = 0x00000000#32 := by
  rw [boundsLane_of_not_isNaN ha hb, decide_eq_false (not_lt.2 hhigh), decide_eq_false (not_lt.2 hlow)]
  rfl

theorem boundsLane_high (hhigh : key32 b < key32 a) (hlow : -key32 b ≤ key32 a) : boundsLane a b = 0x80000000#32 := by
  rw [boundsLane_of_not_isNaN ha hb, decide_eq_true hhigh, decide_eq_false (not_lt.2 hlow)]
  rfl

theorem boundsLane_low (hhigh : key32 a ≤ key32 b) (hlow : key32 a < -key32 b) : boundsLane a b = 0x40000000#32 := by
  rw [boundsLane_of_not_isNaN ha hb, decide_eq_false (not_lt.2 hhigh), decide_eq_true hlow]
  rfl

theorem boundsLane_both (hhigh : key32 b < key32 a) (hlow : key32 a < -key32 b) : boundsLane a b = 0xC0000000#32 := by
  rw [boundsLane_of_not_isNaN ha hb, decide_eq_true hhigh, decide_eq_true hlow]
  rfl

end Corners

/-! ### The keys of the special patterns -/

theorem key32_posInf : key32 0x7F800000#32 = infMagnitude := by decide
theorem key32_negInf : key32 0xFF800000#32 = -(infMagnitude : Int) := by decide
theorem key32_leastDenormal : key32 0x00000001#32 = 1 := by decide
theorem key32_negZero : key32 0x80000000#32 = key32 0x00000000#32 := by decide
theorem isNaN32_negZero : isNaN32 0x80000000#32 = isNaN32 0x00000000#32 := by decide

end Sys2Proof.Machine
end

section
/-! Lanes exchanged (R69(b)), and the template run twice (R69(e)). -/

namespace Sys2Proof.Machine

@[simp] theorem lane_permuteLanes (p : Fin 4 → Fin 4) (v : Vec128) (k : Fin 4) :
    lane (permuteLanes p v) k = lane v (p k) := by
  fin_cases k <;> simp [permuteLanes]

theorem boundsVec_permuteLanes (p : Fin 4 → Fin 4) (a b : Vec128) :
    boundsVec (permuteLanes p a) (permuteLanes p b) = permuteLanes p (boundsVec a b) :=
  vec_eq_of_lanes fun k => by simp [lane_boundsVec]

theorem anyOut_permuteLanes (p : Equiv.Perm (Fin 4)) (r : Vec128) : anyOut (permuteLanes p r) = anyOut r := by
  rw [Bool.eq_iff_iff, anyOut_eq_true_iff, anyOut_eq_true_iff]
  simp only [lane_permuteLanes]
  exact (p.surjective.exists (p := fun k => lane r k ≠ 0#32)).symm

section Twice

variable {vd va vb : VRNum} (rc : Bool) (s : State) (hva : vd ≠ va) (hvb : vd ≠ vb)

include hva hvb

theorem execBounds_twice_readVR (n : VRNum) :
    (execBounds vd va vb rc (execBounds vd va vb rc s)).readVR n = (execBounds vd va vb rc s).readVR n := by
  by_cases hn : n = vd
  · subst hn
    rw [execBounds_readVR_dest, execBounds_readVR_dest, execBounds_readVR_other _ _ _ _ _ _ hva.symm,
      execBounds_readVR_other _ _ _ _ _ _ hvb.symm]
  · rw [execBounds_readVR_other _ _ _ _ _ _ hn]

theorem execBounds_twice_cr6 :
    (execBounds vd va vb rc (execBounds vd va vb rc s)).cr6 = (execBounds vd va vb rc s).cr6 := by
  cases rc with
  | false => exact execBounds_cr6_nonRecord _ _ _ _ _ rfl
  | true =>
    rw [execBounds_cr6_record _ _ _ _ _ rfl, execBounds_cr6_record _ _ _ _ _ rfl,
      execBounds_twice_readVR true s hva hvb]

end Twice

end Sys2Proof.Machine
end

section
/-! The statements of the lane function and of what its results depend on. -/

namespace Sys2Proof

open Sys2Proof.Machine

/-- Settles O9: on patterns that are no NaN the value is a strictly monotone function of the key. -/
theorem comparisonsAreTheOrderOfTheValues : Obligations.ComparisonsAreTheOrderOfTheValues := by
  intro a b
  refine ⟨?_, ?_, isNaN32_fneg32 a, floatValue_fneg32 a⟩
  · rw [fgt32_iff]
    exact and_congr_right fun ha => and_congr_right fun hb => (floatValue_lt_iff hb ha).symm
  · rw [flt32_iff]
    exact and_congr_right fun ha => and_congr_right fun hb => (floatValue_lt_iff ha hb).symm

/-- Settles O10: the two tests of a lane, told by the values in place of the keys. -/
theorem laneIsZeroExactlyInBounds : Obligations.LaneIsZeroExactlyInBounds := by
  intro a b
  rw [boundsLane_eq_zero_iff]
  refine and_congr_right fun ha => and_congr_right fun hb => ?_
  have hb' : isNaN32 (fneg32 b) = false := (isNaN32_fneg32 b).trans hb
  rw [← floatValue_fneg32, ← floatValue_lt_iff hb ha, ← key32_fneg32, ← floatValue_lt_iff ha hb', Bool.not_eq_true,
    Bool.not_eq_true]

/-- Settles O11: in each corner the two comparisons of the keys are linear arithmetic, where an infinity has the largest
magnitude of all. -/
theorem cornersOfTheLaneFunction : Obligations.CornersOfTheLaneFunction := by
  intro a b ha hb
  have hka := natAbs_key32_le ha
  have hkb := natAbs_key32_le hb
  refine ⟨fun h h' => ?_, fun h h' => ?_, fun h h' => boundsLane_both ha hb h', fun h h' => ?_, fun h h' => ?_,
    fun h => ?_, fun h h' => ?_, fun h h' h'' => ?_, fun h h' => ?_, fun h h' => ?_⟩
  · exact boundsLane_inBounds ha hb (by omega) (by omega)
  · exact boundsLane_low ha hb (by omega) (by omega)
  · exact boundsLane_high ha hb (by omega) (by omega)
  · exact boundsLane_inBounds ha hb (by omega) (by omega)
  · have hinf : key32 b = infMagnitude := h ▸ key32_posInf
    exact boundsLane_inBounds ha hb (by omega) (by omega)
  · have hinf : key32 a = infMagnitude := h ▸ key32_posInf
    have hfinite := natAbs_key32_lt h'
    exact boundsLane_high ha hb (by omega) (by omega)
  · have hinf : key32 a = -(infMagnitude : Int) := h ▸ key32_negInf
    have hfinite := natAbs_key32_lt h'
    exact boundsLane_low ha hb (by omega) (by omega)
  · have hinf : key32 b = -(infMagnitude : Int) := h ▸ key32_negInf
    have hfinite := natAbs_key32_lt h'
    exact boundsLane_both ha hb (by omega) (by omega)
  · have hone : key32 a = 1 := h ▸ key32_leastDenormal
    exact boundsLane_high ha hb (by omega) (by omega)

/-- Settles O12: negating `a` turns each of the two comparisons into the other; and `a > b >= 0` excludes `a < -b`. -/
theorem negatingAExchangesTheBits : Obligations.NegatingAExchangesTheBits := by
  intro a b
  refine ⟨?_, ?_, fun ha hb hnonneg hboth => ?_⟩
  · rw [boundsLane_eq_flagPair, boundsLane_eq_flagPair, getLsbD_flagPair_31, getLsbD_flagPair_30, isNaN32_fneg32,
      fgt32_fneg32_left]
  · rw [boundsLane_eq_flagPair, boundsLane_eq_flagPair, getLsbD_flagPair_31, getLsbD_flagPair_30, isNaN32_fneg32,
      flt32_fneg32_fneg32]
  · rw [boundsLane_of_not_isNaN ha hb, flagPair_eq_both_iff, decide_eq_true_eq, decide_eq_true_eq] at hboth
    omega

/-- Settles O13: both zeros have the key 0 and are no NaN. -/
theorem zerosOfEitherSignAreAlike : Obligations.ZerosOfEitherSignAreAlike :=
  fun _ _ => ⟨boundsLane_congr isNaN32_negZero key32_negZero rfl rfl, boundsLane_congr rfl rfl isNaN32_negZero key32_negZero⟩

/-- Settles O20: the result lanes are the lane function of the sources before; with one source, a lane is compared with
itself. -/
theorem sourcesAreReadBeforeTheDestinationIsWritten : Obligations.SourcesAreReadBeforeTheDestinationIsWritten := by
  refine fun i s => ⟨_, exec_eq i s, fun k => ⟨lane_execBounds_dest .., fun hsame => ?_⟩⟩
  rw [lane_execBounds_dest, ← hsame]
  refine ⟨fun hnan => boundsLane_of_isNaN (.inl hnan), fun hnum hnonneg => ?_, fun hnum hneg => ?_⟩
  · exact boundsLane_inBounds hnum hnum le_rfl (by omega)
  · exact boundsLane_low hnum hnum le_rfl (by omega)

/-- Settles O21: the vector function works lane by lane, and a permutation reaches every lane. -/
theorem lanePermutationsCommute : Obligations.LanePermutationsCommute := by
  intro p a b
  rw [boundsVec_permuteLanes]
  exact ⟨rfl, anyOut_permuteLanes p _⟩

/-- Settles O22: the destination, and the CR6 of a record form, are functions of the two source values. -/
theorem resultDependsOnTheSourcesAlone : Obligations.ResultDependsOnTheSourcesAlone := by
  intro i j s u ha hb
  have hresult : (execBounds i.vd i.va i.vb i.rc s).readVR i.vd = (execBounds j.vd j.va j.vb j.rc u).readVR j.vd := by
    rw [execBounds_readVR_dest, execBounds_readVR_dest, ha, hb]
  refine ⟨_, _, exec_eq i s, exec_eq j u, hresult, fun hi hj => ?_⟩
  rw [execBounds_cr6_record _ _ _ _ _ hi, execBounds_cr6_record _ _ _ _ _ hj, hresult]

/-- Settles O23: the first execution leaves both sources, so the second has the same result. -/
theorem executingTwiceIsExecutingOnce : Obligations.ExecutingTwiceIsExecutingOnce :=
  fun i s hva hvb => ⟨_, _, exec_eq i s, exec_eq i _, execBounds_twice_readVR i.rc s hva hvb,
    execBounds_twice_cr6 i.rc s hva hvb⟩

end Sys2Proof
end
